-- ==== Sys2Proof/Word.lean ====
section
/-! DEFINITION. The Word, the machine's one unit of storage (spec/00_scope.md R5), and the byte of its two streams. -/

namespace Sys2Proof

/-- A Word: "unsigned 16-bit value" (R5). Registers, memory cells, stack entries, instruction words and the IP are Words. -/
abbrev Word := BitVec 16

/-- A byte of the image, of the input stream or of the output stream (spec/46_io.md R170, R171). -/
abbrev Byte := BitVec 8

end Sys2Proof
end

