-- ==== Sys2Proof/Syntax.lean ====
section
/-! DEFINITION. The syntax: registers, operands and the 22 instructions of spec/30_encoding.md R67. -/

namespace Sys2Proof

/-- The eight general registers (spec/10_state.md R20). -/
inductive Reg where
  | r0 | r1 | r2 | r3 | r4 | r5 | r6 | r7
  deriving DecidableEq, Repr

/-- An operand word, in the one class of R62 it belongs to. -/
inductive Operand where
  /-- A literal, 0 to 32767: the value itself (R62, R72). -/
  | lit (n : BitVec 15)
  /-- A register reference, word 32768 + i (R62). -/
  | reg (r : Reg)
  /-- An operand word of 32776 or more: no meaning, using it faults InvalidOperand (R62, R70). -/
  | invalid (w : Word)
  deriving DecidableEq, Repr

/-- The instructions, one constructor per row of R67, operands a, b, c in the source's order (R60). A destination operand is an
`Operand` like any other: a literal or invalid word there is fetched and only then refused by the step (R64, R84). -/
inductive Instr where
  /-- HALT (R100) -/
  | halt
  /-- SET a, b (R110) -/
  | set (a b : Operand)
  /-- PUSH a (R111) -/
  | push (a : Operand)
  /-- POP a (R112) -/
  | pop (a : Operand)
  /-- EQ a, b, c (R121) -/
  | eq (a b c : Operand)
  /-- GT a, b, c (R122) -/
  | gt (a b c : Operand)
  /-- JMP a (R141) -/
  | jmp (a : Operand)
  /-- JT a, b (R142) -/
  | jt (a b : Operand)
  /-- JF a, b (R143) -/
  | jf (a b : Operand)
  /-- ADD a, b, c (R123) -/
  | add (a b c : Operand)
  /-- MULT a, b, c (R124) -/
  | mult (a b c : Operand)
  /-- MOD a, b, c (R125) -/
  | mod (a b c : Operand)
  /-- AND a, b, c (R126) -/
  | and (a b c : Operand)
  /-- OR a, b, c (R127) -/
  | or (a b c : Operand)
  /-- NOT a, b (R128) -/
  | not (a b : Operand)
  /-- RMEM a, b (R161) -/
  | rmem (a b : Operand)
  /-- WMEM a, b (R162) -/
  | wmem (a b : Operand)
  /-- CALL a (R144) -/
  | call (a : Operand)
  /-- RET (R145) -/
  | ret
  /-- OUT a (R172) -/
  | out (a : Operand)
  /-- IN a (R173) -/
  | inp (a : Operand)
  /-- NOOP (R101) -/
  | noop
  deriving DecidableEq, Repr

end Sys2Proof
end

