-- ==== Sys2Proof/WellFormed.lean ====
section
/-! DEFINITION. Which terms of the syntax stand for words (`wf`), and which of those the spec calls legal instructions
(`legal`, spec/30_encoding.md R64, R70). -/

namespace Sys2Proof

/-- The operand is the class its word has: an `invalid` word is 32776 or more (R62). -/
def Operand.wf : Operand → Bool
  | .lit _ => true
  | .reg _ => true
  | .invalid w => decide (32776 ≤ w.toNat)

/-- The operand names a register: the only form a destination may have (R64). -/
def Operand.isReg : Operand → Bool
  | .reg _ => true
  | .lit _ => false
  | .invalid _ => false

/-- The operand is a literal or a register reference: the forms a value operand may have (R63). -/
def Operand.isValue : Operand → Bool
  | .lit _ => true
  | .reg _ => true
  | .invalid _ => false

/-- The instruction stands for a sequence of words: each operand is the class its word has. -/
def Instr.wf : Instr → Bool
  | .halt => true
  | .set a b => a.wf && b.wf
  | .push a => a.wf
  | .pop a => a.wf
  | .eq a b c => a.wf && b.wf && c.wf
  | .gt a b c => a.wf && b.wf && c.wf
  | .jmp a => a.wf
  | .jt a b => a.wf && b.wf
  | .jf a b => a.wf && b.wf
  | .add a b c => a.wf && b.wf && c.wf
  | .mult a b c => a.wf && b.wf && c.wf
  | .mod a b c => a.wf && b.wf && c.wf
  | .and a b c => a.wf && b.wf && c.wf
  | .or a b c => a.wf && b.wf && c.wf
  | .not a b => a.wf && b.wf
  | .rmem a b => a.wf && b.wf
  | .wmem a b => a.wf && b.wf
  | .call a => a.wf
  | .ret => true
  | .out a => a.wf
  | .inp a => a.wf
  | .noop => true

/-- The instruction has legal operand words only (R70): no invalid word, and no literal as a destination. The roles are the
`operands (role)` column of R67. -/
def Instr.legal : Instr → Bool
  | .halt => true
  | .set a b => a.isReg && b.isValue
  | .push a => a.isValue
  | .pop a => a.isReg
  | .eq a b c => a.isReg && b.isValue && c.isValue
  | .gt a b c => a.isReg && b.isValue && c.isValue
  | .jmp a => a.isValue
  | .jt a b => a.isValue && b.isValue
  | .jf a b => a.isValue && b.isValue
  | .add a b c => a.isReg && b.isValue && c.isValue
  | .mult a b c => a.isReg && b.isValue && c.isValue
  | .mod a b c => a.isReg && b.isValue && c.isValue
  | .and a b c => a.isReg && b.isValue && c.isValue
  | .or a b c => a.isReg && b.isValue && c.isValue
  | .not a b => a.isReg && b.isValue
  | .rmem a b => a.isReg && b.isValue
  | .wmem a b => a.isValue && b.isValue
  | .call a => a.isValue
  | .ret => true
  | .out a => a.isValue
  | .inp a => a.isReg
  | .noop => true

end Sys2Proof
end

