-- ==== Sys2Proof/Decode.lean ====
section
/-! DEFINITION. Decoding words into instructions, total and rejecting by name, and the encoder written from the same tables
(spec/30_encoding.md R60 to R68). -/

namespace Sys2Proof

/-- Why a word sequence is no instruction. -/
inductive DecodeError where
  /-- The opcode word is 22 or more (R69). -/
  | invalidOpcode (op : Word)
  /-- The sequence ends before the instruction does. -/
  | truncated
  /-- A byte sequence of odd length is no word sequence (spec/70_reset_and_hazards.md R242). -/
  | oddLength
  deriving DecidableEq, Repr

/-- Register `i`, for `i` 0 to 7 (spec/10_state.md R20). -/
def Reg.ofBits (i : BitVec 3) : Reg :=
  match i.toNat with
  | 0 => .r0
  | 1 => .r1
  | 2 => .r2
  | 3 => .r3
  | 4 => .r4
  | 5 => .r5
  | 6 => .r6
  | _ => .r7

/-- The register's number (R20). -/
def Reg.index : Reg → Word
  | .r0 => 0
  | .r1 => 1
  | .r2 => 2
  | .r3 => 3
  | .r4 => 4
  | .r5 => 5
  | .r6 => 6
  | .r7 => 7

/-- The class of an operand word, by value (R62): below 32768 the literal, 32768 to 32775 register `w[2:0]`, else invalid. -/
def Operand.decode (w : Word) : Operand :=
  if w.toNat < 32768 then .lit (w.setWidth 15)
  else if w.toNat < 32776 then .reg (Reg.ofBits (w.setWidth 3))
  else .invalid w

/-- The four formats of R61, each with the instruction it builds from its operands. -/
inductive Format where
  | f0 (i : Instr)
  | f1 (build : Operand → Instr)
  | f2 (build : Operand → Operand → Instr)
  | f3 (build : Operand → Operand → Operand → Instr)

/-- The operand count of a format (R61). -/
def Format.operandCount : Format → Nat
  | .f0 _ => 0
  | .f1 _ => 1
  | .f2 _ => 2
  | .f3 _ => 3

/-- The opcode map (R66, R67); `none` is an illegal opcode word, 22 to 65535 (R69). -/
def opcodeRow (op : Word) : Option Format :=
  match op.toNat with
  | 0 => some (.f0 .halt)
  | 1 => some (.f2 .set)
  | 2 => some (.f1 .push)
  | 3 => some (.f1 .pop)
  | 4 => some (.f3 .eq)
  | 5 => some (.f3 .gt)
  | 6 => some (.f1 .jmp)
  | 7 => some (.f2 .jt)
  | 8 => some (.f2 .jf)
  | 9 => some (.f3 .add)
  | 10 => some (.f3 .mult)
  | 11 => some (.f3 .mod)
  | 12 => some (.f3 .and)
  | 13 => some (.f3 .or)
  | 14 => some (.f2 .not)
  | 15 => some (.f2 .rmem)
  | 16 => some (.f2 .wmem)
  | 17 => some (.f1 .call)
  | 18 => some (.f0 .ret)
  | 19 => some (.f1 .out)
  | 20 => some (.f1 .inp)
  | 21 => some (.f0 .noop)
  | _ => none

/-- The operand words of a format, taken from the words after the opcode; the words left over follow the instruction (R60, R61). -/
def Format.decode (f : Format) (ws : List Word) : Except DecodeError (Instr × List Word) :=
  match f, ws with
  | .f0 i, rest => .ok (i, rest)
  | .f1 build, a :: rest => .ok (build (.decode a), rest)
  | .f2 build, a :: b :: rest => .ok (build (.decode a) (.decode b), rest)
  | .f3 build, a :: b :: c :: rest => .ok (build (.decode a) (.decode b) (.decode c), rest)
  | .f1 _, _ => .error .truncated
  | .f2 _, _ => .error .truncated
  | .f3 _, _ => .error .truncated

/-- The instruction at the head of a word sequence, and the words after it (R60, R68). -/
def decode (ws : List Word) : Except DecodeError (Instr × List Word) :=
  match ws with
  | [] => .error .truncated
  | op :: rest =>
    match opcodeRow op with
    | none => .error (.invalidOpcode op)
    | some f => f.decode rest

/-- Words from bytes, "low byte first" (spec/20_memory.md R44, spec/70_reset_and_hazards.md R242); `none` for an odd length. -/
def wordsOfBytes : List Byte → Option (List Word)
  | [] => some []
  | [_] => none
  | lo :: hi :: rest => (wordsOfBytes rest).map ((hi ++ lo) :: ·)

/-- The bytes of words, low byte first. -/
def bytesOfWords : List Word → List Byte
  | [] => []
  | w :: ws => w.setWidth 8 :: (w >>> 8).setWidth 8 :: bytesOfWords ws

/-- Decoding bytes: pair them into words (R44), then decode the words. -/
def decodeBytes (bs : List Byte) : Except DecodeError (Instr × List Word) :=
  match wordsOfBytes bs with
  | none => .error .oddLength
  | some ws => decode ws

/-- The word of an operand (R62). -/
def Operand.encode : Operand → Word
  | .lit n => n.setWidth 16
  | .reg r => 32768 + r.index
  | .invalid w => w

/-- The opcode word of an instruction (R67). -/
def Instr.opcode : Instr → Word
  | .halt => 0
  | .set _ _ => 1
  | .push _ => 2
  | .pop _ => 3
  | .eq _ _ _ => 4
  | .gt _ _ _ => 5
  | .jmp _ => 6
  | .jt _ _ => 7
  | .jf _ _ => 8
  | .add _ _ _ => 9
  | .mult _ _ _ => 10
  | .mod _ _ _ => 11
  | .and _ _ _ => 12
  | .or _ _ _ => 13
  | .not _ _ => 14
  | .rmem _ _ => 15
  | .wmem _ _ => 16
  | .call _ => 17
  | .ret => 18
  | .out _ => 19
  | .inp _ => 20
  | .noop => 21

/-- The operands of an instruction, in order a, b, c (R60, R67). -/
def Instr.operands : Instr → List Operand
  | .halt => []
  | .set a b => [a, b]
  | .push a => [a]
  | .pop a => [a]
  | .eq a b c => [a, b, c]
  | .gt a b c => [a, b, c]
  | .jmp a => [a]
  | .jt a b => [a, b]
  | .jf a b => [a, b]
  | .add a b c => [a, b, c]
  | .mult a b c => [a, b, c]
  | .mod a b c => [a, b, c]
  | .and a b c => [a, b, c]
  | .or a b c => [a, b, c]
  | .not a b => [a, b]
  | .rmem a b => [a, b]
  | .wmem a b => [a, b]
  | .call a => [a]
  | .ret => []
  | .out a => [a]
  | .inp a => [a]
  | .noop => []

/-- The instruction's length in Words: "1 + operand count" (R7, R68). -/
def Instr.length (i : Instr) : Nat := 1 + i.operands.length

/-- The words of an instruction: the opcode word, then the operand words (R60, R61). -/
def encode (i : Instr) : List Word := i.opcode :: i.operands.map Operand.encode

/-- The 64 bits that start with the `nbits` low bits of `w`, bit 0 the lowest of the first word, as four words (the longest
instruction, R7); every bit from `nbits` on is 0. -/
def tableWords (nbits w : Nat) : List Word :=
  let v := w % 2 ^ nbits
  [BitVec.ofNat 16 v, BitVec.ofNat 16 (v / 2 ^ 16), BitVec.ofNat 16 (v / 2 ^ 32), BitVec.ofNat 16 (v / 2 ^ 48)]

/-- The instruction the decoder reads from an instruction whose bits are `w`, numbered as spec/opcode_table.json numbers them,
laid out in bytes as an image is (low byte first, R44). -/
def decodeTableWord (nbits w : Nat) : Option Instr :=
  match decodeBytes (bytesOfWords (tableWords nbits w)) with
  | .ok (i, _) => some i
  | .error _ => none

end Sys2Proof
end

