-- ==== Sys2Proof/Config.lean ====
section
/-! DEFINITION. The implementation parameters of spec/00_scope.md R11, as plain data. A State carries its parameters, so that a
claim over all states is a claim about every value of them. No step and no host event changes them. -/

namespace Sys2Proof

/-- One Word for each of the eight registers r0 to r7 (R6, R20): the register file, and the parameter REG_INIT. -/
structure Regs where
  r0 : Word
  r1 : Word
  r2 : Word
  r3 : Word
  r4 : Word
  r5 : Word
  r6 : Word
  r7 : Word
  deriving DecidableEq, Repr

/-- All eight registers 0: the spec's default for REG_INIT (R11, R20, R240). -/
def Regs.zero : Regs := ⟨0, 0, 0, 0, 0, 0, 0, 0⟩

/-- The parameter WIDE_LOGIC (R11, R120 item 4): what AND, OR and NOT do with an operand of 32768 or more. -/
inductive WideLogic where
  /-- 16-bit operation, no reduction (the default). -/
  | full16
  /-- Each value operand is first reduced to its bits [14:0]. -/
  | mask15
  deriving DecidableEq, Repr

/-- The parameters an implementation fixes (R11 and the end of spec/92_eei_decisions.md). -/
structure Config where
  /-- `MEM_SIZE`, the memory length a load gives, in Words (R8). -/
  memSize : Nat
  /-- `STACK_CAP`: `none` is unbounded (R10). -/
  stackCap : Option Nat
  /-- `HEADROOM_INIT`: the headroom's Words after a load, from its first address on; the rest are 0 (R11, R50). -/
  headroomInit : List Word
  /-- `REG_INIT`: the registers after reset (R11, R20). -/
  regInit : Regs
  /-- `WIDE_LOGIC` (R11, R120). -/
  wideLogic : WideLogic
  deriving DecidableEq, Repr

/-- The spec's default of every parameter (R8, R10, R11). -/
def Config.default : Config where
  memSize := 32768
  stackCap := none
  headroomInit := []
  regInit := Regs.zero
  wideLogic := .full16

/-- `MEM_SIZE <= 32768`, the range R8 gives the parameter. -/
def Config.wf (c : Config) : Bool := decide (c.memSize ≤ 32768)

/-- A stack of `depth` entries is within `STACK_CAP` (R10, R23). -/
def Config.stackAllows (c : Config) (depth : Nat) : Bool :=
  match c.stackCap with
  | none => true
  | some cap => decide (depth ≤ cap)

end Sys2Proof
end

