-- ==== Sys2Proof/Machine/State.lean ====
section
/-! DEFINITION. The machine's state as plain data (spec/10_state.md), the fault record and snapshot types, the two stop types of
the host's interface, and the state after reset (spec/70_reset_and_hazards.md R240). -/

namespace Sys2Proof
namespace Machine

/-- Memory: the Words that are not 0, by Word address, addresses strictly rising (spec/20_memory.md R40, R41). The address an entry
does not list reads as `unlistedWord` (Machine/Ops.lean). DESIGN CHOICE (log 7): Words, not bytes, since no address names a byte (R44). -/
abbrev Memory := List (Nat × Word)

/-- The fault codes (spec/60_exceptions.md R204). -/
inductive FaultCode where
  /-- 0, no fault -/
  | none
  /-- 1 (R201) -/
  | stackUnderflow
  /-- 2 (R202) -/
  | divideByZero
  /-- 3 (R208) -/
  | invalidOperand
  /-- 4 (R209) -/
  | outOfBounds
  /-- 5 (R210) -/
  | invalidOpcode
  /-- 6 (R203) -/
  | stackOverflow
  /-- 7 (R212) -/
  | inputExhausted
  /-- 8 (R211) -/
  | invalidInput
  deriving DecidableEq, Repr

/-- FaultAccess (spec/10_state.md R29, spec/60_exceptions.md R209). -/
inductive Access where
  /-- 0 -/
  | opcodeFetch
  /-- 1 -/
  | operandFetch
  /-- 2 -/
  | rmemRead
  /-- 3 -/
  | wmemWrite
  deriving DecidableEq, Repr

/-- What a step raises (`raise F(info)`): the fault with what R206 records of it. -/
inductive Cause where
  | stackUnderflow
  | divideByZero
  | invalidOperand
  | outOfBounds (access : Access) (addr : Word)
  | invalidOpcode
  | stackOverflow
  | inputExhausted
  | invalidInput
  deriving DecidableEq, Repr

/-- The fault record (R29). A field that is not valid holds 0, as reset left it (log 10). -/
structure FaultRecord where
  faultCode : FaultCode
  faultIp : Word
  faultOpcode : Word
  opcodeValid : Bool
  faultAddr : Word
  addrValid : Bool
  faultAccess : Access
  deriving DecidableEq, Repr

/-- No fault recorded: the record's reset value (R29, R240). -/
def FaultRecord.clear : FaultRecord where
  faultCode := .none
  faultIp := 0
  faultOpcode := 0
  opcodeValid := false
  faultAddr := 0
  addrValid := false
  faultAccess := .opcodeFetch

/-- Why CORE is Halted (R28). -/
inductive HaltCause where
  /-- the HALT instruction -/
  | halt
  /-- a snapshot at the polling point -/
  | suspend
  deriving DecidableEq, Repr

/-- The run state (R28). -/
inductive RunState where
  | running
  | halted (cause : HaltCause)
  | faulted
  deriving DecidableEq, Repr

/-- How far an IN that waits for an input byte has got (spec/46_io.md R170, R173, R174): the step is not over. -/
inductive InPhase where
  /-- waiting for its first byte -/
  | first
  /-- inside the override, with the number read so far (`none`: no digit yet) -/
  | number (n : Option Word)
  /-- after the override's closing delimiter, waiting for the byte to deliver -/
  | last (ov : Word)
  deriving DecidableEq, Repr

/-- A snapshot: the MachineState of R33 with the fields of R216, in R216's order. Registers and stack (bottom to top) are lists, as
long as the host makes them (R218); the memory is its length and its Words in the form of `Memory` (log 13). -/
structure Snapshot where
  ip : Word
  regs : List Word
  stack : List Word
  memSize : Nat
  mem : Memory
  programSize : Nat
  runningFlag : Bool
  deriving DecidableEq, Repr

/-- The machine's state (spec/10_state.md section 6), with the host's side of CORE's streams (log 4, 5) and the parameters (log 6). -/
structure State where
  /-- the parameters (R11); never changed by a step -/
  config : Config
  /-- r0 to r7 (R20) -/
  regs : Regs
  /-- IP (R22): during a step, the address of the instruction's opcode word -/
  ip : Word
  /-- the stack (R23), top first -/
  stack : List Word
  /-- memory (R32) -/
  mem : Memory
  /-- `MEM_SIZE`, the memory's length in Words (R8) -/
  memSize : Nat
  /-- ProgramSize (R26) -/
  programSize : Nat
  /-- RunningFlag (R27) -/
  runningFlag : Bool
  /-- run state and halt cause (R28) -/
  runState : RunState
  /-- the fault record (R29) -/
  faultRecord : FaultRecord
  /-- the cancel latch (R30) -/
  cancel : Bool
  /-- the IN in progress, if one waits for input (R170) -/
  inPhase : Option InPhase
  /-- input bytes answered by the host and not yet consumed, oldest first (R170) -/
  input : List Byte
  /-- after those, the host has answered end-of-input (R170) -/
  inputEnded : Bool
  /-- the output stream, oldest byte first (R171) -/
  output : List Byte
  /-- the snapshots handed to the host, oldest first (R87, R216) -/
  snapshots : List Snapshot
  deriving DecidableEq, Repr

/-- Reasons the model stops without a next state. There is none: every fault of the spec is one CORE TAKES, a next state in Faulted with
its record (R200, R205, R215; log 1), and a stopped or waiting CORE stays as it is (log 2, 3). Safe: nothing is raised. -/
inductive Fault where
  deriving DecidableEq, Repr

/-- Reasons an instruction has no meaning here. -/
inductive Refusal where
  /-- Raised by an arm of `exec` for an instruction of the opcode table that the model gives no meaning (none is left). Safe. -/
  | notModelled (mnemonic : String)
  deriving DecidableEq, Repr

/-- The machine right after reset (R240), with the default parameters and the empty image, which the loader accepts (R242):
`PROGRAM_SIZE = 0`. The image is the host's to give (R244); the streams' values are DESIGN CHOICE (log 4, 5, 8). -/
def State.reset : State where
  config := Config.default
  regs := Regs.zero
  ip := 0
  stack := []
  mem := []
  memSize := 32768
  programSize := 0
  runningFlag := true
  runState := .running
  faultRecord := FaultRecord.clear
  cancel := false
  inPhase := none
  input := []
  inputEnded := false
  output := []
  snapshots := []

end Machine
end Sys2Proof
end

