-- ==== Sys2Proof/Machine/Ops.lean ====
section
/-! DEFINITION. The named operations on memory, registers, IP and stack, taking a fault, suspending at the polling point and
resuming from a snapshot. Every instruction's meaning is written over these. -/

namespace Sys2Proof
namespace Machine

/-! ### Memory (spec/20_memory.md) -/

/-- What an unlisted address below MEM_SIZE reads as: the headroom's 0 (R50, R240). -/
def unlistedWord : Word := 0

/-- The Word at address `a`, bounds aside. -/
def Memory.read (a : Nat) : Memory → Word
  | [] => unlistedWord
  | (b, x) :: m => if b = a then x else Memory.read a m

/-- The memory with the Word `v` at address `a`, in canonical form. -/
def Memory.write (a : Nat) (v : Word) : Memory → Memory
  | [] => if v = unlistedWord then [] else [(a, v)]
  | (b, x) :: m =>
    if a < b then (if v = unlistedWord then (b, x) :: m else (a, v) :: (b, x) :: m)
    else if a = b then (if v = unlistedWord then m else (a, v) :: m)
    else (b, x) :: Memory.write a v m

/-- The canonical form: addresses strictly rising, no entry equal to what an unlisted address reads as. -/
def Memory.wf : Memory → Bool
  | [] => true
  | (a, v) :: m => decide (v ≠ unlistedWord) && m.all (fun c => decide (a < c.1)) && Memory.wf m

/-- Every listed address is below `n`. -/
def Memory.below (n : Nat) (m : Memory) : Bool := m.all (fun c => decide (c.1 < n))

/-- The memory that holds the words from address `a` on and nothing else. -/
def Memory.ofWordsFrom (a : Nat) : List Word → Memory
  | [] => []
  | w :: ws => if w = unlistedWord then Memory.ofWordsFrom (a + 1) ws else (a, w) :: Memory.ofWordsFrom (a + 1) ws

/-- Word i at address i (R49). -/
def Memory.ofWords (ws : List Word) : Memory := Memory.ofWordsFrom 0 ws

/-- Words 0 to `n - 1`: the memory "full addressable size" (R216). -/
def Memory.words (n : Nat) (m : Memory) : List Word := (List.range n).map (fun a => Memory.read a m)

/-- `MemRead(addr, 1)` (R42), with the kind of access R209 records. -/
def State.memRead (s : State) (access : Access) (addr : Nat) : Except Cause Word :=
  if addr < s.memSize then .ok (Memory.read addr s.mem)
  else .error (.outOfBounds access (BitVec.ofNat 16 addr))

/-- `MemWrite(addr, 1, v)` (R43). -/
def State.memWrite (s : State) (addr : Nat) (v : Word) : Except Cause State :=
  if addr < s.memSize then .ok { s with mem := Memory.write addr v s.mem }
  else .error (.outOfBounds .wmemWrite (BitVec.ofNat 16 addr))

/-! ### Registers and IP (spec/10_state.md R20, R22) -/

/-- `x[r]`. -/
def Regs.read (x : Regs) : Reg → Word
  | .r0 => x.r0
  | .r1 => x.r1
  | .r2 => x.r2
  | .r3 => x.r3
  | .r4 => x.r4
  | .r5 => x.r5
  | .r6 => x.r6
  | .r7 => x.r7

/-- `x[r] <- v`. -/
def Regs.write (x : Regs) (r : Reg) (v : Word) : Regs :=
  match r with
  | .r0 => { x with r0 := v }
  | .r1 => { x with r1 := v }
  | .r2 => { x with r2 := v }
  | .r3 => { x with r3 := v }
  | .r4 => { x with r4 := v }
  | .r5 => { x with r5 := v }
  | .r6 => { x with r6 := v }
  | .r7 => { x with r7 := v }

/-- `x[r]` of a state. -/
def State.readReg (s : State) (r : Reg) : Word := Regs.read s.regs r

/-- `x[r] <- v`; no register is hardwired (R20). -/
def State.writeReg (s : State) (r : Reg) (v : Word) : State := { s with regs := Regs.write s.regs r v }

/-- `pc <- t` (spec/44_control.md R140: the target is not checked here). -/
def State.jump (s : State) (t : Word) : State := { s with ip := t }

/-- `next`, the address after the instruction (spec/40_step.md R86). -/
def State.nextIp (s : State) (i : Instr) : Word := s.ip + BitVec.ofNat 16 i.length

/-- `pc <- next`. -/
def State.advance (s : State) (i : Instr) : State := s.jump (s.nextIp i)

/-! ### Stack (R23 to R25) -/

/-- `push(v)` (R24). -/
def State.push (s : State) (v : Word) : Except Cause State :=
  if s.config.stackAllows (s.stack.length + 1) then .ok { s with stack := v :: s.stack }
  else .error .stackOverflow

/-- `pop()` (R25): the top entry and the state without it. -/
def State.pop (s : State) : Except Cause (Word × State) :=
  match s.stack with
  | [] => .error .stackUnderflow
  | v :: rest => .ok (v, { s with stack := rest })

/-! ### Taking a fault (spec/60_exceptions.md R200 to R215) -/

/-- The code of a raised fault (R204). -/
def Cause.code : Cause → FaultCode
  | .stackUnderflow => .stackUnderflow
  | .divideByZero => .divideByZero
  | .invalidOperand => .invalidOperand
  | .outOfBounds _ _ => .outOfBounds
  | .invalidOpcode => .invalidOpcode
  | .stackOverflow => .stackOverflow
  | .inputExhausted => .inputExhausted
  | .invalidInput => .invalidInput

/-- The record of a fault raised at IP `ip` with opcode word `op` (`none`: the opcode fetch failed) (R206, R29). -/
def FaultRecord.ofCause (c : Cause) (ip : Word) (op : Option Word) : FaultRecord where
  faultCode := c.code
  faultIp := ip
  faultOpcode := op.getD 0
  opcodeValid := op.isSome
  faultAddr := match c with
    | .outOfBounds _ addr => addr
    | _ => 0
  addrValid := match c with
    | .outOfBounds _ _ => true
    | _ => false
  faultAccess := match c with
    | .outOfBounds access _ => access
    | _ => .opcodeFetch

/-- `raise c`: CORE takes the fault (R205, R206, R215). RunningFlag false, Faulted, the record written; nothing else changes (and the
step is over, so no IN is in progress). There is no return from a fault (R219). -/
def State.raise (s : State) (c : Cause) (op : Option Word) : State :=
  { s with
    runningFlag := false
    runState := .faulted
    faultRecord := FaultRecord.ofCause c s.ip op
    inPhase := none }

/-- The end of instruction `i`'s `EXEC` (R85): its result, or the fault it raised, taken in the state the step began with, so that none
of its writes happens (R205). -/
def complete (i : Instr) (s : State) (r : Except Cause State) : Host.Outcome State Fault Refusal :=
  match r with
  | .ok t => .next t
  | .error c => .next (s.raise c (some i.opcode))

/-! ### Suspend and resume (R87, R216 to R218) -/

/-- r0 to r7 in order (R216). -/
def Regs.toList (x : Regs) : List Word := [x.r0, x.r1, x.r2, x.r3, x.r4, x.r5, x.r6, x.r7]

/-- The register file of a list of exactly 8 Words (R218). -/
def Regs.ofList : List Word → Option Regs
  | [a, b, c, d, e, f, g, h] => some ⟨a, b, c, d, e, f, g, h⟩
  | _ => none

/-- The MachineState of R33 with "RunningFlag forced false" (R216), stack entries bottom to top. -/
def State.snapshot (s : State) : Snapshot where
  ip := s.ip
  regs := Regs.toList s.regs
  stack := s.stack.reverse
  memSize := s.memSize
  mem := s.mem
  programSize := s.programSize
  runningFlag := false

/-- The fields of a snapshot as numbers, in R216's order: IP, the registers, the stack's depth and entries, the memory's length and
Words, ProgramSize, RunningFlag. -/
def Snapshot.fields (x : Snapshot) : List Nat :=
  x.ip.toNat :: x.regs.map BitVec.toNat ++ (x.stack.length :: x.stack.map BitVec.toNat)
    ++ (x.memSize :: (Memory.words x.memSize x.mem).map BitVec.toNat) ++ [x.programSize, x.runningFlag.toNat]

/-- CORE hands the snapshot to the host, clears the latch and RunningFlag and enters Halted(SUSPEND) (R87). -/
def State.suspend (s : State) : State :=
  { s with
    cancel := false
    runningFlag := false
    runState := .halted .suspend
    snapshots := s.snapshots ++ [s.snapshot] }

/-- The polling point (R87): after a step that leaves CORE Running. A step whose IN still waits is not over (spec/46_io.md R170), so
there is no polling point after it. -/
def State.poll (s : State) : State :=
  if s.runState = .running ∧ s.inPhase = none ∧ s.cancel = true then s.suspend else s

/-- Why a restore is refused (R218); the last is about the model's form of a memory only (log 13). -/
inductive RestoreRefusal where
  | notEightRegisters
  | badSizes
  | stackTooDeep
  | memoryForm
  deriving DecidableEq, Repr

/-- Resume (R217), or a refusal (R218). The I/O streams, and the snapshots the host holds, are not touched. -/
def State.restore (s : State) (x : Snapshot) : Except RestoreRefusal State :=
  match Regs.ofList x.regs with
  | none => .error .notEightRegisters
  | some regs =>
    if ¬ (x.programSize ≤ x.memSize ∧ x.memSize ≤ 32768) then .error .badSizes
    else if ¬ s.config.stackAllows x.stack.length then .error .stackTooDeep
    else if ¬ (Memory.wf x.mem && Memory.below x.memSize x.mem) then .error .memoryForm
    else .ok { s with
      ip := x.ip
      regs := regs
      stack := x.stack.reverse
      mem := x.mem
      memSize := x.memSize
      programSize := x.programSize
      runningFlag := true
      runState := .running
      faultRecord := FaultRecord.clear
      cancel := false
      inPhase := none }

end Machine
end Sys2Proof
end

