-- ==== Sys2Proof/Machine/Operands.lean ====
section
/-! DEFINITION. Operand resolution (spec/30_encoding.md R63 to R65, spec/40_step.md R84): every operand form the spec gives. -/

namespace Sys2Proof
namespace Machine

/-- `val(w)` (R63): the literal itself, never extended by sign, or the register's current Word; an invalid word raises
InvalidOperand. -/
def operandVal (s : State) : Operand → Except Cause Word
  | .lit n => .ok (n.setWidth 16)
  | .reg r => .ok (s.readReg r)
  | .invalid _ => .error .invalidOperand

/-- `dst(w)` (R64): the register a destination names; a literal or an invalid word raises InvalidOperand. -/
def operandDst : Operand → Except Cause Reg
  | .reg r => .ok r
  | .lit _ => .error .invalidOperand
  | .invalid _ => .error .invalidOperand

end Machine
end Sys2Proof
end

