-- ==== Sys2Proof/Machine/Alu.lean ====
section
/-! DEFINITION. EQ, GT, ADD, MULT, MOD, AND, OR and NOT (spec/43_alu.md). Each computes on exact unsigned numbers and narrows at the
end (R120); none writes a flag (R120 item 6). -/

namespace Sys2Proof
namespace Machine

/-- R121: 1 if equal as 16-bit values, else 0. -/
def aluEq (x y : Word) : Word := if x = y then 1 else 0

/-- R122: 1 if greater, unsigned and strict, else 0. -/
def aluGt (x y : Word) : Word := if y.toNat < x.toNat then 1 else 0

/-- R123: the exact sum, then modulo 32768. -/
def aluAdd (x y : Word) : Word := BitVec.ofNat 16 ((x.toNat + y.toNat) % 32768)

/-- R124: the exact product, then modulo 32768. -/
def aluMult (x y : Word) : Word := BitVec.ofNat 16 ((x.toNat * y.toNat) % 32768)

/-- R125: the unsigned remainder; a zero divisor raises DivideByZero. -/
def aluMod (x y : Word) : Except Cause Word :=
  if y = 0 then .error .divideByZero else .ok (BitVec.ofNat 16 (x.toNat % y.toNat))

/-- A value operand of AND, OR or NOT under WIDE_LOGIC (R120 item 4): as it is, or its bits [14:0]. -/
def logicOperand (w : WideLogic) (x : Word) : Word :=
  match w with
  | .full16 => x
  | .mask15 => x &&& 32767

/-- R126. -/
def aluAnd (w : WideLogic) (x y : Word) : Word := logicOperand w x &&& logicOperand w y

/-- R127. -/
def aluOr (w : WideLogic) (x y : Word) : Word := logicOperand w x ||| logicOperand w y

/-- R128: 32767 XOR b. -/
def aluNot (w : WideLogic) (x : Word) : Word := 32767 ^^^ logicOperand w x

/-- The common form of the F3 ALU instructions: resolve a, b, c in order (spec/40_step.md R84), compute, write a, advance. -/
def aluBinary (i : Instr) (f : Word → Word → Except Cause Word) (a b c : Operand) (s : State) :
    Host.Outcome State Fault Refusal :=
  complete i s do
    let d ← operandDst a
    let x ← operandVal s b
    let y ← operandVal s c
    let z ← f x y
    pure ((s.writeReg d z).advance i)

/-- EQ a, b, c (R121). -/
def execEq (a b c : Operand) (s : State) : Host.Outcome State Fault Refusal :=
  aluBinary (.eq a b c) (fun x y => .ok (aluEq x y)) a b c s

/-- GT a, b, c (R122). -/
def execGt (a b c : Operand) (s : State) : Host.Outcome State Fault Refusal :=
  aluBinary (.gt a b c) (fun x y => .ok (aluGt x y)) a b c s

/-- ADD a, b, c (R123). -/
def execAdd (a b c : Operand) (s : State) : Host.Outcome State Fault Refusal :=
  aluBinary (.add a b c) (fun x y => .ok (aluAdd x y)) a b c s

/-- MULT a, b, c (R124). -/
def execMult (a b c : Operand) (s : State) : Host.Outcome State Fault Refusal :=
  aluBinary (.mult a b c) (fun x y => .ok (aluMult x y)) a b c s

/-- MOD a, b, c (R125). -/
def execMod (a b c : Operand) (s : State) : Host.Outcome State Fault Refusal :=
  aluBinary (.mod a b c) aluMod a b c s

/-- AND a, b, c (R126). -/
def execAnd (a b c : Operand) (s : State) : Host.Outcome State Fault Refusal :=
  aluBinary (.and a b c) (fun x y => .ok (aluAnd s.config.wideLogic x y)) a b c s

/-- OR a, b, c (R127). -/
def execOr (a b c : Operand) (s : State) : Host.Outcome State Fault Refusal :=
  aluBinary (.or a b c) (fun x y => .ok (aluOr s.config.wideLogic x y)) a b c s

/-- NOT a, b (R128). -/
def execNot (a b : Operand) (s : State) : Host.Outcome State Fault Refusal :=
  complete (.not a b) s do
    let d ← operandDst a
    let x ← operandVal s b
    pure ((s.writeReg d (aluNot s.config.wideLogic x)).advance (.not a b))

end Machine
end Sys2Proof
end

