-- ==== Sys2Proof/Machine/Control.lean ====
section
/-! DEFINITION. JMP, JT, JF, CALL and RET (spec/44_control.md). A target is absolute and not checked when it is set (R140). -/

namespace Sys2Proof
namespace Machine

/-- JMP a (R141). -/
def execJmp (a : Operand) (s : State) : Host.Outcome State Fault Refusal :=
  complete (.jmp a) s do
    let t ← operandVal s a
    pure (s.jump t)

/-- JT a, b (R142): both operands are resolved whether or not the branch is taken. -/
def execJt (a b : Operand) (s : State) : Host.Outcome State Fault Refusal :=
  complete (.jt a b) s do
    let x ← operandVal s a
    let t ← operandVal s b
    pure (if x ≠ 0 then s.jump t else s.advance (.jt a b))

/-- JF a, b (R143): both operands are resolved whether or not the branch is taken. -/
def execJf (a b : Operand) (s : State) : Host.Outcome State Fault Refusal :=
  complete (.jf a b) s do
    let x ← operandVal s a
    let t ← operandVal s b
    pure (if x = 0 then s.jump t else s.advance (.jf a b))

/-- CALL a (R144): the target is resolved before the push of `next`. -/
def execCall (a : Operand) (s : State) : Host.Outcome State Fault Refusal :=
  complete (.call a) s do
    let t ← operandVal s a
    let u ← s.push (s.nextIp (.call a))
    pure (u.jump t)

/-- RET (R145). -/
def execRet (s : State) : Host.Outcome State Fault Refusal :=
  complete .ret s do
    let (t, u) ← s.pop
    pure (u.jump t)

end Machine
end Sys2Proof
end

