-- ==== Sys2Proof/Machine/Io.lean ====
section
/-! DEFINITION. OUT and IN (spec/46_io.md), IN with the override protocol of R174. -/

namespace Sys2Proof
namespace Machine

/-- The delimiter `|` (R173, R174). -/
def delimiter : Byte := 124

/-- What the input answered so far makes of an IN (R170, R173, R174). -/
inductive InResult where
  /-- the byte to deliver, the override's value if there was one, and the bytes left unread -/
  | delivered (c : Byte) (ov : Option Word) (rest : List Byte)
  /-- end-of-input: every byte is consumed (R212) -/
  | exhausted
  /-- a malformed override, with the bytes left unread (R211) -/
  | malformed (rest : List Byte)
  /-- no answer yet: the IN waits in this phase -/
  | waits (p : InPhase)
  deriving DecidableEq, Repr

/-- `InByte()` with no byte left: end-of-input if the host has answered it, else the step waits (R170). -/
def inNoByte (ended : Bool) (p : InPhase) : InResult := if ended then .exhausted else .waits p

/-- The override's number after one more byte: `none` for a byte that is no digit '0' to '9' or a number above 65535 (R174). -/
def addDigit (n : Option Word) (d : Byte) : Option Word :=
  if d.toNat < 48 ∨ 57 < d.toNat then none
  else if 65535 < 10 * (n.getD 0).toNat + (d.toNat - 48) then none
  else some (BitVec.ofNat 16 (10 * (n.getD 0).toNat + (d.toNat - 48)))

/-- "one more real byte", delivered as it is, even `|` (R173, R174). -/
def inLast (ended : Bool) (ov : Word) : List Byte → InResult
  | [] => inNoByte ended (.last ov)
  | c :: rest => .delivered c (some ov) rest

/-- `OVERRIDE()` from the number `n` read so far (`none`: no digit yet) (R174). -/
def inNumber (ended : Bool) (n : Option Word) : List Byte → InResult
  | [] => inNoByte ended (.number n)
  | d :: rest =>
    if d = delimiter then
      match n with
      | none => .malformed rest
      | some ov => inLast ended ov rest
    else
      match addDigit n d with
      | none => .malformed rest
      | some m => inNumber ended (some m) rest

/-- The first byte: the delimiter opens the override, any other byte is delivered (R173). -/
def inFirst (ended : Bool) : List Byte → InResult
  | [] => inNoByte ended .first
  | c :: rest => if c = delimiter then inNumber ended none rest else .delivered c none rest

/-- The protocol of R173 and R174 from the phase an IN has reached. -/
def inProtocol (ended : Bool) (p : InPhase) (bytes : List Byte) : InResult :=
  match p with
  | .first => inFirst ended bytes
  | .number n => inNumber ended n bytes
  | .last ov => inLast ended ov bytes

/-- `if ov != none then x[7] <- ov` (R173). -/
def State.applyOverride (s : State) (ov : Option Word) : State :=
  match ov with
  | none => s
  | some v => s.writeReg .r7 v

/-- OUT a (R172): `OutByte` of bits [7:0] (R171). -/
def execOut (a : Operand) (s : State) : Host.Outcome State Fault Refusal :=
  complete (.out a) s do
    let x ← operandVal s a
    pure ({ s with output := s.output ++ [x.setWidth 8] }.advance (.out a))

/-- IN a (R173): the destination is checked before any byte is read (spec/40_step.md R88). Bytes read before a fault stay consumed and no
register is written (spec/60_exceptions.md R205). While no answer comes the step is not over: only the consumed bytes and the phase are
kept, and the next step goes on from there (R170; log 3). -/
def execInp (a : Operand) (s : State) : Host.Outcome State Fault Refusal :=
  match operandDst a with
  | .error c => .next (s.raise c (some (Instr.inp a).opcode))
  | .ok d =>
    match inProtocol s.inputEnded (s.inPhase.getD .first) s.input with
    | .delivered c ov rest =>
      .next { ((s.applyOverride ov).writeReg d (c.setWidth 16)).advance (.inp a) with input := rest, inPhase := none }
    | .exhausted => .next (State.raise { s with input := [] } .inputExhausted (some (Instr.inp a).opcode))
    | .malformed rest => .next (State.raise { s with input := rest } .invalidInput (some (Instr.inp a).opcode))
    | .waits p => .next { s with input := [], inPhase := some p }

end Machine
end Sys2Proof
end

