-- ==== Sys2Proof/Machine/MemoryAccess.lean ====
section
/-! DEFINITION. RMEM and WMEM (spec/45_memory_access.md): absolute addressing, one whole Word (R160). -/

namespace Sys2Proof
namespace Machine

/-- RMEM a, b (R161). -/
def execRmem (a b : Operand) (s : State) : Host.Outcome State Fault Refusal :=
  complete (.rmem a b) s do
    let d ← operandDst a
    let addr ← operandVal s b
    let v ← s.memRead .rmemRead addr.toNat
    pure ((s.writeReg d v).advance (.rmem a b))

/-- WMEM a, b (R162). -/
def execWmem (a b : Operand) (s : State) : Host.Outcome State Fault Refusal :=
  complete (.wmem a b) s do
    let addr ← operandVal s a
    let v ← operandVal s b
    let t ← s.memWrite addr.toNat v
    pure (t.advance (.wmem a b))

end Machine
end Sys2Proof
end

