-- ==== Sys2Proof/Machine/RegisterStack.lean ====
section
/-! DEFINITION. SET, PUSH and POP (spec/42_register_stack.md). -/

namespace Sys2Proof
namespace Machine

/-- SET a, b (R110). -/
def execSet (a b : Operand) (s : State) : Host.Outcome State Fault Refusal :=
  complete (.set a b) s do
    let d ← operandDst a
    let x ← operandVal s b
    pure ((s.writeReg d x).advance (.set a b))

/-- PUSH a (R111). -/
def execPush (a : Operand) (s : State) : Host.Outcome State Fault Refusal :=
  complete (.push a) s do
    let x ← operandVal s a
    let t ← s.push x
    pure (t.advance (.push a))

/-- POP a (R112): the destination is checked before the stack (spec/40_step.md R88). -/
def execPop (a : Operand) (s : State) : Host.Outcome State Fault Refusal :=
  complete (.pop a) s do
    let d ← operandDst a
    let (x, t) ← s.pop
    pure ((t.writeReg d x).advance (.pop a))

end Machine
end Sys2Proof
end

