-- ==== Sys2Proof/Machine/System.lean ====
section
/-! DEFINITION. HALT and NOOP (spec/41_system.md). -/

namespace Sys2Proof
namespace Machine

/-- HALT (R100): RunningFlag false, Halted(HALT); the IP stays at the HALT (spec/90_conflicts.md C2). -/
def execHalt (s : State) : Host.Outcome State Fault Refusal :=
  .next { s with runningFlag := false, runState := .halted .halt }

/-- NOOP (R101). -/
def execNoop (s : State) : Host.Outcome State Fault Refusal :=
  .next (s.advance .noop)

end Machine
end Sys2Proof
end

