-- ==== Sys2Proof/Machine/Fetch.lean ====
section
/-! DEFINITION. Fetching an instruction (spec/40_step.md R82, R83), and placing one where the next fetch finds it. -/

namespace Sys2Proof
namespace Machine

/-- The `k`-th operand word of the instruction at the IP, read from memory with bound MEM_SIZE (R83), in its class (R62). -/
def State.fetchOperand (s : State) (k : Nat) : Except Cause Operand := do
  let w ← s.memRead .operandFetch (s.ip.toNat + k)
  pure (.decode w)

/-- The operand fetch of a format: operand words 1 to n in turn (R83). Nothing is resolved here (R84). -/
def State.fetchOperands (s : State) : Format → Except Cause Instr
  | .f0 i => pure i
  | .f1 build => do
    let a ← s.fetchOperand 1
    pure (build a)
  | .f2 build => do
    let a ← s.fetchOperand 1
    let b ← s.fetchOperand 2
    pure (build a b)
  | .f3 build => do
    let a ← s.fetchOperand 1
    let b ← s.fetchOperand 2
    let c ← s.fetchOperand 3
    pure (build a b c)

/-- The opcode and operand fetch of a step (R82, R83), in the order of R88: the instruction at the IP, or the fault raised with the
opcode word as far as it was fetched. -/
def State.fetch (s : State) : Except (Cause × Option Word) Instr :=
  if s.programSize ≤ s.ip.toNat then .error (.outOfBounds .opcodeFetch s.ip, none)
  else
    match s.memRead .opcodeFetch s.ip.toNat with
    | .error c => .error (c, none)
    | .ok op =>
      match opcodeRow op with
      | none => .error (.invalidOpcode, some op)
      | some f =>
        match s.fetchOperands f with
        | .error c => .error (c, some op)
        | .ok i => .ok i

/-- The memory with words at addresses `a`, `a + 1`, … -/
def Memory.writeAll (a : Nat) : List Word → Memory → Memory
  | [], m => m
  | w :: ws, m => Memory.writeAll (a + 1) ws (Memory.write a w m)

/-- A program of these words, loaded from outside at the IP of a machine ready to fetch it (log 9): the words in memory, MEM_SIZE and
PROGRAM_SIZE at least the address after them, Running, and no IN in progress. -/
def State.placeAtIp (s : State) (ws : List Word) : State :=
  { s with
    mem := Memory.writeAll s.ip.toNat ws s.mem
    memSize := max s.memSize (s.ip.toNat + ws.length)
    programSize := max s.programSize (s.ip.toNat + ws.length)
    runningFlag := true
    runState := .running
    inPhase := none }

end Machine
end Sys2Proof
end

