-- ==== Sys2Proof/Machine/Step.lean ====
section
/-! DEFINITION. The step (spec/40_step.md R89). -/

namespace Sys2Proof
namespace Machine

/-- One step (R89): fetch, execute, polling point. CORE takes a step only when Running (R81): a Halted or Faulted machine stays as it is
(log 2). A fault of the fetch is taken like any other, and no polling point follows a fault (R87). -/
def step (s : State) : Host.Outcome State Fault Refusal :=
  match s.runState with
  | .halted _ => .next s
  | .faulted => .next s
  | .running =>
    match s.fetch with
    | .error (c, op) => .next (s.raise c op)
    | .ok i =>
      match exec i s with
      | .next t => .next t.poll
      | .fault r => .fault r
      | .refused r => .refused r

/-- `s` with the instruction whose bits are `w` (numbered as spec/opcode_table.json numbers them) where the next step fetches. -/
def State.withFetchWord (s : State) (nbits w : Nat) : State := s.placeAtIp (tableWords nbits w)

end Machine
end Sys2Proof
end

