-- ==== Sys2Proof/Machine/Flags.lean ====
section
/-! DEFINITION. Status. CORE has no flags and no condition codes (spec/10_state.md R31): no instruction computes one, and the only
flag-like state is RunningFlag (R27), cleared by HALT, a fault and a suspend (Machine/System.lean, Machine/Ops.lean). What is read of
the control state is the status word and the exit status (spec/60_exceptions.md R207). -/

namespace Sys2Proof
namespace Machine

/-- FaultCode as its 4 bits (R204). -/
def FaultCode.bits : FaultCode → BitVec 4
  | .none => 0
  | .stackUnderflow => 1
  | .divideByZero => 2
  | .invalidOperand => 3
  | .outOfBounds => 4
  | .invalidOpcode => 5
  | .stackOverflow => 6
  | .inputExhausted => 7
  | .invalidInput => 8

/-- FaultAccess as its 2 bits (R29, R209). -/
def Access.bits : Access → BitVec 2
  | .opcodeFetch => 0
  | .operandFetch => 1
  | .rmemRead => 2
  | .wmemWrite => 3

/-- The RunState field of the status word (R207). -/
def RunState.bits : RunState → BitVec 2
  | .running => 0
  | .halted .halt => 1
  | .halted .suspend => 2
  | .faulted => 3

/-- The FaultCode the status word shows: "0 unless RunState = 3" (R207). -/
def State.shownFaultCode (s : State) : FaultCode :=
  if s.runState = .faulted then s.faultRecord.faultCode else .none

/-- The status word (R207): [7:4] FaultCode, [3:2] reserved 0, [1:0] RunState. -/
def State.statusWord (s : State) : BitVec 8 :=
  s.shownFaultCode.bits ++ (0#2 ++ s.runState.bits)

/-- The host's exit status (R207): 0 for Halted by HALT, 1 for Halted by suspend, 10 + FaultCode for a fault; none while Running. -/
def State.exitStatus (s : State) : Option Nat :=
  match s.runState with
  | .running => none
  | .halted .halt => some 0
  | .halted .suspend => some 1
  | .faulted => some (10 + s.faultRecord.faultCode.bits.toNat)

end Machine
end Sys2Proof
end

