-- ==== Sys2Proof/Machine/HostInterface.lean ====
section
/-! DEFINITION. What the host can do to CORE (spec/60_exceptions.md R226): load and reset, input, cancellation and restore as one
function of an event and a state. Output and status are read: State.output, State.snapshots, and Machine/Flags.lean. The host can write
nothing else of a running CORE (R226). -/

namespace Sys2Proof
namespace Machine

/-- The host's interactions that send something (R226). -/
inductive HostEvent where
  /-- load and reset, with the image's bytes (R240, R242) -/
  | load (image : List Byte)
  /-- a byte of input (R170) -/
  | inputByte (b : Byte)
  /-- end-of-input (R170) -/
  | endOfInput
  /-- a cancellation request (R213) -/
  | cancelRequest
  /-- a restore (R217) -/
  | restore (x : Snapshot)
  deriving DecidableEq, Repr

/-- Why an interaction is refused. -/
inductive HostRefusal where
  /-- an image with an odd number of bytes (R242) -/
  | oddImage
  /-- an image of more than MEM_SIZE Words (R242) -/
  | imageTooLong
  /-- input after end-of-input, which is answered again to every later request (R170; log 4) -/
  | inputAfterEnd
  /-- a snapshot that is not valid (R218) -/
  | snapshotRefused (r : RestoreRefusal)
  deriving DecidableEq, Repr

/-- Reset with an image of words (R240), the parameters as they are; the host's streams are not touched (log 16). -/
def State.boot (s : State) (image : List Word) : State :=
  { s with
    regs := s.config.regInit
    ip := 0
    stack := []
    mem := Memory.ofWords (image ++ s.config.headroomInit.take (s.config.memSize - image.length))
    memSize := s.config.memSize
    programSize := image.length
    runningFlag := true
    runState := .running
    faultRecord := FaultRecord.clear
    cancel := false
    inPhase := none }

/-- Image load, then reset (R242, R244), or a refusal: then no CORE is started from the image. -/
def State.load (s : State) (image : List Byte) : Except HostRefusal State :=
  match wordsOfBytes image with
  | none => .error .oddImage
  | some ws => if s.config.memSize < ws.length then .error .imageTooLong else .ok (s.boot ws)

/-- One interaction of R226: the machine after it, or the refusal. -/
def State.host (s : State) : HostEvent → Except HostRefusal State
  | .load image => s.load image
  | .inputByte b => if s.inputEnded then .error .inputAfterEnd else .ok { s with input := s.input ++ [b] }
  | .endOfInput => .ok { s with inputEnded := true }
  | .cancelRequest => .ok { s with cancel := true }
  | .restore x =>
    match s.restore x with
    | .ok t => .ok t
    | .error r => .error (.snapshotRefused r)

end Machine
end Sys2Proof
end

