-- ==== Sys2Proof/Safety.lean ====
section
/-! DEFINITION. The terms claims use: how a run ends (spec/60_exceptions.md R227), and the invariant of the states a run reaches. -/

namespace Sys2Proof
namespace Machine

/-- A normal end: Halted by HALT, and nothing else (R227). -/
abbrev State.endedNormally (s : State) : Prop := s.runState = .halted .halt

/-- A failed end: Faulted (R227). -/
abbrev State.failed (s : State) : Prop := s.runState = .faulted

/-- Quiescent: Halted or Faulted; CORE takes no step (R28, R81). -/
abbrev State.quiescent (s : State) : Prop := s.runState ≠ .running

/-- A snapshot that a restore accepts (R218): 8 registers, the sizes in order, the stack within `STACK_CAP`, and the memory in the model's
canonical form (log 13). The stored RunningFlag is ignored. -/
def Snapshot.restorable (c : Config) (x : Snapshot) : Bool :=
  decide (x.regs.length = 8) && decide (x.programSize ≤ x.memSize) && decide (x.memSize ≤ 32768)
    && c.stackAllows x.stack.length && Memory.wf x.mem && Memory.below x.memSize x.mem

/-- The record of a Faulted machine (R29, R206): a fault is coded; the address is valid exactly for OutOfBounds and the access 0 for
every other fault; the opcode is not valid only when the opcode fetch failed; what is not valid holds 0. -/
def FaultRecord.wf (r : FaultRecord) : Bool :=
  decide (r.faultCode ≠ .none) && (r.addrValid == decide (r.faultCode = .outOfBounds))
    && (r.addrValid || (decide (r.faultAddr = 0) && decide (r.faultAccess = .opcodeFetch)))
    && (r.opcodeValid == !(r.addrValid && decide (r.faultAccess = .opcodeFetch)))
    && (r.opcodeValid || decide (r.faultOpcode = 0))

/-- The invariant of the reachable states. -/
structure State.Inv (s : State) : Prop where
  /-- the memory keeps its canonical form -/
  memCanonical : Memory.wf s.mem = true
  /-- no Word is listed outside the memory (R48) -/
  memInside : Memory.below s.memSize s.mem = true
  /-- `PROGRAM_SIZE <= MEM_SIZE` (R8, R26) -/
  programFits : s.programSize ≤ s.memSize
  /-- `MEM_SIZE <= 32768` (R8) -/
  memFits : s.memSize ≤ 32768
  /-- the depth is within `STACK_CAP` (R23) -/
  stackFits : s.config.stackAllows s.stack.length = true
  /-- RunningFlag is true exactly when Running (R27) -/
  flagIsRunning : s.runningFlag = decide (s.runState = .running)
  /-- no fault is recorded of a machine that is not Faulted (R29, R217) -/
  recordClear : s.runState ≠ .faulted → s.faultRecord = FaultRecord.clear
  /-- a Faulted machine has a fault recorded (R29, R206) -/
  recordSet : s.runState = .faulted → s.faultRecord.wf = true
  /-- an IN is in progress only in a Running machine whose IP is at that IN (R80, R170) -/
  phaseIsIn : s.inPhase ≠ none → s.runState = .running ∧ ∃ d, s.fetch = .ok (.inp (.reg d))
  /-- every snapshot handed to the host can be restored, and its RunningFlag is stored false (R27, R216, R218) -/
  snapshotsValid : ∀ x ∈ s.snapshots, x.restorable s.config = true ∧ x.runningFlag = false
  /-- the parameter MEM_SIZE is in its range (R8) -/
  configFits : s.config.wf = true

/-! ### terms of the statements, written from the rules and not from the meanings -/

/-- The record of a fault other than OutOfBounds (R29, R206): the code, the IP and the opcode word, valid; no address, access 0. -/
def plainRecord (code : FaultCode) (ip op : Word) : FaultRecord where
  faultCode := code
  faultIp := ip
  faultOpcode := op
  opcodeValid := true
  faultAddr := 0
  addrValid := false
  faultAccess := .opcodeFetch

/-- The record of an OutOfBounds fault whose opcode was fetched (R29, R206, R209). -/
def boundsRecord (access : Access) (addr ip op : Word) : FaultRecord where
  faultCode := .outOfBounds
  faultIp := ip
  faultOpcode := op
  opcodeValid := true
  faultAddr := addr
  addrValid := true
  faultAccess := access

/-- The record of a failed opcode fetch (R82, R206): the address is the IP, the opcode not valid. -/
def fetchRecord (ip : Word) : FaultRecord where
  faultCode := .outOfBounds
  faultIp := ip
  faultOpcode := 0
  opcodeValid := false
  faultAddr := ip
  addrValid := true
  faultAccess := .opcodeFetch

/-- The machine after a fault (R205): only RunningFlag, the run state and the record change, and no step is in progress. -/
def State.faultedWith (s : State) (r : FaultRecord) : State :=
  { s with runningFlag := false, runState := .faulted, faultRecord := r, inPhase := none }

/-- An ASCII digit, '0' to '9' (R174). -/
def isDigit (b : Byte) : Bool := decide (48 ≤ b.toNat) && decide (b.toNat ≤ 57)

/-- The number a sequence of decimal digits denotes, most significant first (R174). -/
def decimalValue (ds : List Byte) : Nat := ds.foldl (fun n d => 10 * n + (d.toNat - 48)) 0

/-- The operand that names the register an instruction writes: the `writes register` column of R21 (IN's r7 apart). -/
def destOperand : Instr → Option Operand
  | .halt => none
  | .set a _ => some a
  | .push _ => none
  | .pop a => some a
  | .eq a _ _ => some a
  | .gt a _ _ => some a
  | .jmp _ => none
  | .jt _ _ => none
  | .jf _ _ => none
  | .add a _ _ => some a
  | .mult a _ _ => some a
  | .mod a _ _ => some a
  | .and a _ _ => some a
  | .or a _ _ => some a
  | .not a _ => some a
  | .rmem a _ => some a
  | .wmem _ _ => none
  | .call _ => none
  | .ret => none
  | .out _ => none
  | .inp a => some a
  | .noop => none

/-- Parameters, memory size and program size are the same. -/
def State.sameSizes (s t : State) : Prop :=
  t.config = s.config ∧ t.memSize = s.memSize ∧ t.programSize = s.programSize

/-- Run state, RunningFlag, fault record and IN in progress are the same. -/
def State.sameControl (s t : State) : Prop :=
  t.runState = s.runState ∧ t.runningFlag = s.runningFlag ∧ t.faultRecord = s.faultRecord ∧ t.inPhase = s.inPhase

/-- Cancel latch and the snapshots handed out are the same. -/
def State.sameLatch (s t : State) : Prop := t.cancel = s.cancel ∧ t.snapshots = s.snapshots

/-- The input stream is the same. -/
def State.sameInput (s t : State) : Prop := t.input = s.input ∧ t.inputEnded = s.inputEnded

/-- Every register but those of `except` is the same. -/
def State.sameRegsBut (s t : State) (except : List Reg) : Prop := ∀ r, r ∉ except → t.readReg r = s.readReg r

/-- Every Word of memory but those at the addresses of `except` reads the same. -/
def State.sameMemoryBut (s t : State) (except : List Nat) : Prop :=
  ∀ a, a ∉ except → Memory.read a t.mem = Memory.read a s.mem

end Machine
end Sys2Proof
end

