-- ==== Sys2Proof/Certificates/Slice0/Obligations.lean ====
section
/-! DEFINITION. The statements for the provers. Each formalises the rule its docstring names. -/

open Sys2Proof Sys2Proof.Machine

/-! ### Encoding -/

/-- Decode of encode is the instruction, for every well-formed instruction, whatever words follow (R60 to R62, R67, R68). -/
def Obligations.DecodeInvertsEncode : Prop :=
  ∀ (i : Instr) (rest : List Word), i.wf = true → decode (encode i ++ rest) = .ok (i, rest)

/-- Encode of what was decoded is the words decoded, and what is decoded is well-formed: each word sequence has one meaning. -/
def Obligations.EncodeInvertsDecode : Prop :=
  ∀ (ws : List Word) (i : Instr) (rest : List Word), decode ws = .ok (i, rest) →
    i.wf = true ∧ encode i ++ rest = ws

/-- The encodings of the table of R75, and the image bytes of `SET r0, 4`. -/
def Obligations.EncodingExamplesOfTheSpec : Prop :=
  decode [0] = .ok (.halt, []) ∧
  decode [21] = .ok (.noop, []) ∧
  decode [1, 32768, 4] = .ok (.set (.reg .r0) (.lit 4), []) ∧
  decode [19, 32768] = .ok (.out (.reg .r0), []) ∧
  decode [9, 32769, 32769, 32767] = .ok (.add (.reg .r1) (.reg .r1) (.lit 32767), []) ∧
  decode [7, 32768, 6] = .ok (.jt (.reg .r0) (.lit 6), []) ∧
  decode [17, 32775] = .ok (.call (.reg .r7), []) ∧
  decode [16, 20, 65] = .ok (.wmem (.lit 20) (.lit 65), []) ∧
  decode [15, 32768, 20] = .ok (.rmem (.reg .r0) (.lit 20), []) ∧
  decode [20, 32771] = .ok (.inp (.reg .r3), []) ∧
  decodeBytes [0x01, 0x00, 0x00, 0x80, 0x04, 0x00] = .ok (.set (.reg .r0) (.lit 4), [])

/-! ### Operands -/

/-- The value of an operand word, by its class (R62, R63). -/
def Obligations.OperandValueByWordClass : Prop :=
  ∀ (s : State) (w : Word),
    (w.toNat < 32768 → operandVal s (Operand.decode w) = .ok w) ∧
    (32768 ≤ w.toNat → w.toNat < 32776 →
      ∃ r : Reg, r.index.toNat = w.toNat - 32768 ∧ operandVal s (Operand.decode w) = .ok (s.readReg r)) ∧
    (32776 ≤ w.toNat → operandVal s (Operand.decode w) = .error .invalidOperand)

/-- The register a destination word names, or InvalidOperand (R64). -/
def Obligations.DestinationByWordClass : Prop :=
  ∀ w : Word,
    (32768 ≤ w.toNat → w.toNat < 32776 →
      ∃ r : Reg, r.index.toNat = w.toNat - 32768 ∧ operandDst (Operand.decode w) = .ok r) ∧
    (w.toNat < 32768 ∨ 32776 ≤ w.toNat → operandDst (Operand.decode w) = .error .invalidOperand)

/-- An illegal operand word, in whatever position, faults InvalidOperand with none of the instruction's effects (R208): this is where
the forms with a literal destination or an invalid word stop. -/
def Obligations.IllegalOperandFaults : Prop :=
  ∀ (i : Instr) (s : State), i.legal = false →
    exec i s = .next (s.faultedWith (plainRecord .invalidOperand s.ip i.opcode))

/-! ### The step -/

/-- Opcode fetch (R82): at or past PROGRAM_SIZE the step faults OutOfBounds and reads nothing; an opcode word of 22 or more faults
InvalidOpcode (R69, R210), whatever words follow it. -/
def Obligations.OpcodeFetchFaults : Prop :=
  ∀ s : State, s.runState = .running → s.programSize ≤ s.memSize →
    (s.programSize ≤ s.ip.toNat → step s = .next (s.faultedWith (fetchRecord s.ip))) ∧
    (s.ip.toNat < s.programSize → 22 ≤ (Memory.read s.ip.toNat s.mem).toNat →
      step s = .next (s.faultedWith (plainRecord .invalidOpcode s.ip (Memory.read s.ip.toNat s.mem))))

/-- Operand fetch (R83): the first operand word outside memory faults OutOfBounds, before any operand is resolved. -/
def Obligations.OperandFetchOutsideMemoryFaults : Prop :=
  ∀ (s : State) (f : Format) (k : Nat), s.runState = .running → s.programSize ≤ s.memSize →
    s.ip.toNat < s.programSize → opcodeRow (Memory.read s.ip.toNat s.mem) = some f →
    1 ≤ k → k ≤ f.operandCount → (∀ j, j < k → s.ip.toNat + j < s.memSize) → s.memSize ≤ s.ip.toNat + k →
    step s = .next (s.faultedWith
      (boundsRecord .operandFetch (BitVec.ofNat 16 (s.ip.toNat + k)) s.ip (Memory.read s.ip.toNat s.mem)))

/-- A step runs the instruction the words at the IP decode to, then comes the polling point (R82 to R89). Its operand words may lie in
the headroom (R83). -/
def Obligations.StepRunsDecodedInstruction : Prop :=
  ∀ (s : State) (i : Instr) (rest : List Word), s.runState = .running → s.ip.toNat < s.programSize →
    s.programSize ≤ s.memSize → s.ip.toNat + i.length ≤ s.memSize →
    decode ((List.range 4).map fun k => Memory.read (s.ip.toNat + k) s.mem) = .ok (i, rest) →
    step s = match exec i s with
      | .next t => .next t.poll
      | .fault r => .fault r
      | .refused r => .refused r

/-- No instruction and no step stops the model: every one answers a next state (the model's own completeness; R80, log 1, 2, 3). -/
def Obligations.EveryInstructionAndStepAnswersNext : Prop :=
  (∀ (i : Instr) (s : State), ∃ t, exec i s = .next t) ∧ ∀ s : State, ∃ t, step s = .next t

/-- A Halted or Faulted machine stays as it is (R81; that `step` answers the same state is the model's choice, log 2). -/
def Obligations.QuiescentMachineStays : Prop :=
  ∀ s : State, s.quiescent → step s = .next s

/-- The polling point (R87): after a step that leaves CORE Running with the latch set the snapshot (R216) is handed over and CORE
suspends; otherwise nothing happens, and there is none after HALT, after a fault or while an IN waits. -/
def Obligations.PollingPointSuspends : Prop :=
  ∀ s : State, s.runState = .running →
    (∀ i t, s.fetch = .ok i → exec i s = .next t →
      (t.runState = .running → t.inPhase = none → t.cancel = true →
        step s = .next { t with
          cancel := false, runningFlag := false, runState := .halted .suspend
          snapshots := t.snapshots ++ [{
            ip := t.ip
            regs := [t.regs.r0, t.regs.r1, t.regs.r2, t.regs.r3, t.regs.r4, t.regs.r5, t.regs.r6, t.regs.r7]
            stack := t.stack.reverse
            memSize := t.memSize
            mem := t.mem
            programSize := t.programSize
            runningFlag := false }] }) ∧
      (t.runState ≠ .running ∨ t.inPhase ≠ none ∨ t.cancel = false → step s = .next t)) ∧
    (∀ c op, s.fetch = .error (c, op) → ∃ r, step s = .next (s.faultedWith r))

/-- A program cannot read the cancel latch (R30): no fetch and no instruction depends on it. -/
def Obligations.CancelLatchInvisibleToPrograms : Prop :=
  ∀ (s : State) (b : Bool), ({ s with cancel := b } : State).fetch = s.fetch ∧
    ∀ i t, exec i s = .next t → t.cancel = s.cancel ∧ exec i { s with cancel := b } = .next { t with cancel := b }

/-! ### System instructions -/

/-- HALT (R100) stops with the IP at itself and NOOP (R101) advances the IP by one: each with its whole frame. -/
def Obligations.HaltStopsAndNoopAdvances : Prop :=
  ∀ s : State,
    exec .halt s = .next { s with runningFlag := false, runState := .halted .halt } ∧
    exec .noop s = .next { s with ip := s.ip + 1 }

/-! ### Register and stack moves -/

/-- SET (R110). -/
def Obligations.SetCopiesValue : Prop :=
  (∀ (s : State) (d : Reg) (b : Operand) (x : Word), operandVal s b = .ok x →
    exec (.set (.reg d) b) s = .next { s with regs := Regs.write s.regs d x, ip := s.ip + 3 }) ∧
  ∀ (s : State) (a b : Operand), a.isReg = false ∨ b.isValue = false →
    exec (.set a b) s = .next (s.faultedWith (plainRecord .invalidOperand s.ip 1))

/-- PUSH (R111): with room the value is the new top; on a full stack StackOverflow (R24). -/
def Obligations.PushAddsTop : Prop :=
  (∀ (s : State) (a : Operand) (x : Word), operandVal s a = .ok x →
    (s.config.stackAllows (s.stack.length + 1) = true →
      exec (.push a) s = .next { s with stack := x :: s.stack, ip := s.ip + 2 }) ∧
    (s.config.stackAllows (s.stack.length + 1) = false →
      exec (.push a) s = .next (s.faultedWith (plainRecord .stackOverflow s.ip 2)))) ∧
  ∀ (s : State) (a : Operand), a.isValue = false →
    exec (.push a) s = .next (s.faultedWith (plainRecord .invalidOperand s.ip 2))

/-- POP (R112): the top entry goes to the register; an empty stack is StackUnderflow, after the operand check. -/
def Obligations.PopTakesTop : Prop :=
  (∀ (s : State) (d : Reg),
    (∀ v rest, s.stack = v :: rest →
      exec (.pop (.reg d)) s = .next { s with regs := Regs.write s.regs d v, stack := rest, ip := s.ip + 2 }) ∧
    (s.stack = [] → exec (.pop (.reg d)) s = .next (s.faultedWith (plainRecord .stackUnderflow s.ip 3)))) ∧
  ∀ (s : State) (a : Operand), a.isReg = false →
    exec (.pop a) s = .next (s.faultedWith (plainRecord .invalidOperand s.ip 3))

/-! ### ALU -/

/-- EQ and GT (R121, R122): 1 or 0, on 16-bit unsigned values. -/
def Obligations.EqAndGtCompareUnsigned : Prop :=
  (∀ (s : State) (d : Reg) (b c : Operand) (x y : Word), operandVal s b = .ok x → operandVal s c = .ok y →
    exec (.eq (.reg d) b c) s = .next { s with
      regs := Regs.write s.regs d (if x.toNat = y.toNat then 1 else 0), ip := s.ip + 4 } ∧
    exec (.gt (.reg d) b c) s = .next { s with
      regs := Regs.write s.regs d (if x.toNat > y.toNat then 1 else 0), ip := s.ip + 4 }) ∧
  ∀ (s : State) (a b c : Operand), a.isReg = false ∨ b.isValue = false ∨ c.isValue = false →
    exec (.eq a b c) s = .next (s.faultedWith (plainRecord .invalidOperand s.ip 4)) ∧
    exec (.gt a b c) s = .next (s.faultedWith (plainRecord .invalidOperand s.ip 5))

/-- ADD and MULT (R123, R124): the exact sum or product, modulo 32768. -/
def Obligations.AddAndMultModulo32768 : Prop :=
  (∀ (s : State) (d : Reg) (b c : Operand) (x y : Word), operandVal s b = .ok x → operandVal s c = .ok y →
    exec (.add (.reg d) b c) s = .next { s with
      regs := Regs.write s.regs d (BitVec.ofNat 16 ((x.toNat + y.toNat) % 32768)), ip := s.ip + 4 } ∧
    exec (.mult (.reg d) b c) s = .next { s with
      regs := Regs.write s.regs d (BitVec.ofNat 16 ((x.toNat * y.toNat) % 32768)), ip := s.ip + 4 }) ∧
  ∀ (s : State) (a b c : Operand), a.isReg = false ∨ b.isValue = false ∨ c.isValue = false →
    exec (.add a b c) s = .next (s.faultedWith (plainRecord .invalidOperand s.ip 9)) ∧
    exec (.mult a b c) s = .next (s.faultedWith (plainRecord .invalidOperand s.ip 10))

/-- A 16-bit wrapping adder or multiplier with bit 15 of its result cleared is ADD and MULT (R120 item 2): the result the step leaves in
the destination register. -/
def Obligations.WrappingAdderRealisesAddAndMult : Prop :=
  ∀ (s t u : State) (d : Reg) (b c : Operand) (x y : Word), operandVal s b = .ok x → operandVal s c = .ok y →
    exec (.add (.reg d) b c) s = .next t → exec (.mult (.reg d) b c) s = .next u →
    t.readReg d = (x + y) &&& 32767 ∧ u.readReg d = (x * y) &&& 32767

/-- MOD (R125): the unsigned remainder; a zero divisor faults DivideByZero (R202) and leaves the destination. -/
def Obligations.ModRemainderOrDivideByZero : Prop :=
  (∀ (s : State) (d : Reg) (b c : Operand) (x y : Word), operandVal s b = .ok x → operandVal s c = .ok y →
    (y.toNat ≠ 0 → exec (.mod (.reg d) b c) s = .next { s with
      regs := Regs.write s.regs d (BitVec.ofNat 16 (x.toNat % y.toNat)), ip := s.ip + 4 }) ∧
    (y.toNat = 0 → exec (.mod (.reg d) b c) s = .next (s.faultedWith (plainRecord .divideByZero s.ip 11)))) ∧
  ∀ (s : State) (a b c : Operand), a.isReg = false ∨ b.isValue = false ∨ c.isValue = false →
    exec (.mod a b c) s = .next (s.faultedWith (plainRecord .invalidOperand s.ip 11))

/-- AND and OR (R126, R127), bitwise on 16 bits; under WIDE_LOGIC = MASK15 on the operands' bits [14:0] (R120 item 4). -/
def Obligations.AndAndOrBitwise : Prop :=
  (∀ (s : State) (d : Reg) (b c : Operand) (x y : Word), operandVal s b = .ok x → operandVal s c = .ok y →
    (s.config.wideLogic = .full16 →
      exec (.and (.reg d) b c) s = .next { s with regs := Regs.write s.regs d (x &&& y), ip := s.ip + 4 } ∧
      exec (.or (.reg d) b c) s = .next { s with regs := Regs.write s.regs d (x ||| y), ip := s.ip + 4 }) ∧
    (s.config.wideLogic = .mask15 →
      exec (.and (.reg d) b c) s = .next { s with
        regs := Regs.write s.regs d ((x &&& y) &&& 0x7FFF), ip := s.ip + 4 } ∧
      exec (.or (.reg d) b c) s = .next { s with
        regs := Regs.write s.regs d ((x ||| y) &&& 0x7FFF), ip := s.ip + 4 })) ∧
  ∀ (s : State) (a b c : Operand), a.isReg = false ∨ b.isValue = false ∨ c.isValue = false →
    exec (.and a b c) s = .next (s.faultedWith (plainRecord .invalidOperand s.ip 12)) ∧
    exec (.or a b c) s = .next (s.faultedWith (plainRecord .invalidOperand s.ip 13))

/-- NOT (R128): 32767 XOR the operand; on operands below 32768 it is 32767 minus the operand. -/
def Obligations.NotFlipsLowFifteenBits : Prop :=
  (∀ (s : State) (d : Reg) (b : Operand) (x : Word), operandVal s b = .ok x →
    (s.config.wideLogic = .full16 →
      exec (.not (.reg d) b) s = .next { s with regs := Regs.write s.regs d (0x7FFF ^^^ x), ip := s.ip + 3 }) ∧
    (s.config.wideLogic = .mask15 →
      exec (.not (.reg d) b) s = .next { s with
        regs := Regs.write s.regs d ((0x7FFF ^^^ x) &&& 0x7FFF), ip := s.ip + 3 }) ∧
    (x.toNat < 32768 →
      exec (.not (.reg d) b) s = .next { s with
        regs := Regs.write s.regs d (BitVec.ofNat 16 (32767 - x.toNat)), ip := s.ip + 3 })) ∧
  ∀ (s : State) (a b : Operand), a.isReg = false ∨ b.isValue = false →
    exec (.not a b) s = .next (s.faultedWith (plainRecord .invalidOperand s.ip 14))

/-! ### Control transfer -/

/-- JMP (R141). -/
def Obligations.JmpSetsIp : Prop :=
  (∀ (s : State) (a : Operand) (t : Word), operandVal s a = .ok t → exec (.jmp a) s = .next { s with ip := t }) ∧
  ∀ (s : State) (a : Operand), a.isValue = false →
    exec (.jmp a) s = .next (s.faultedWith (plainRecord .invalidOperand s.ip 6))

/-- JT and JF (R142, R143): the target, or exactly IP + 3; both operands are resolved whether or not the branch is taken. -/
def Obligations.JtAndJfBranchOnZero : Prop :=
  (∀ (s : State) (a b : Operand) (x t : Word), operandVal s a = .ok x → operandVal s b = .ok t →
    exec (.jt a b) s = .next { s with ip := if x.toNat ≠ 0 then t else s.ip + 3 } ∧
    exec (.jf a b) s = .next { s with ip := if x.toNat = 0 then t else s.ip + 3 }) ∧
  ∀ (s : State) (a b : Operand), a.isValue = false ∨ b.isValue = false →
    exec (.jt a b) s = .next (s.faultedWith (plainRecord .invalidOperand s.ip 7)) ∧
    exec (.jf a b) s = .next (s.faultedWith (plainRecord .invalidOperand s.ip 8))

/-- CALL (R144): pushes IP + 2 and goes to the target; on a full stack StackOverflow, nothing pushed. -/
def Obligations.CallPushesReturnAddress : Prop :=
  (∀ (s : State) (a : Operand) (t : Word), operandVal s a = .ok t →
    (s.config.stackAllows (s.stack.length + 1) = true →
      exec (.call a) s = .next { s with stack := (s.ip + 2) :: s.stack, ip := t }) ∧
    (s.config.stackAllows (s.stack.length + 1) = false →
      exec (.call a) s = .next (s.faultedWith (plainRecord .stackOverflow s.ip 17)))) ∧
  ∀ (s : State) (a : Operand), a.isValue = false →
    exec (.call a) s = .next (s.faultedWith (plainRecord .invalidOperand s.ip 17))

/-- RET (R145): goes to the popped Word; an empty stack faults StackUnderflow and does not halt. -/
def Obligations.RetPopsIp : Prop :=
  ∀ s : State,
    (∀ v rest, s.stack = v :: rest → exec .ret s = .next { s with stack := rest, ip := v }) ∧
    (s.stack = [] → exec .ret s = .next (s.faultedWith (plainRecord .stackUnderflow s.ip 18)))

/-- RET right after a CALL goes to the instruction after the CALL and leaves the stack as it was (R144, R145). -/
def Obligations.CallThenRetReturns : Prop :=
  ∀ (s t : State) (a : Operand), exec (.call a) s = .next t → t.runState ≠ .faulted →
    exec .ret t = .next { s with ip := s.ip + 2 }

/-! ### Memory access -/

/-- RMEM (R161): the Word at the address, unchanged, for an address below MEM_SIZE; OutOfBounds from MEM_SIZE on. -/
def Obligations.RmemReadsWord : Prop :=
  (∀ (s : State) (d : Reg) (b : Operand) (addr : Word), operandVal s b = .ok addr →
    (addr.toNat < s.memSize → exec (.rmem (.reg d) b) s = .next { s with
      regs := Regs.write s.regs d (Memory.read addr.toNat s.mem), ip := s.ip + 3 }) ∧
    (s.memSize ≤ addr.toNat → exec (.rmem (.reg d) b) s =
      .next (s.faultedWith (boundsRecord .rmemRead addr s.ip 15)))) ∧
  ∀ (s : State) (a b : Operand), a.isReg = false ∨ b.isValue = false →
    exec (.rmem a b) s = .next (s.faultedWith (plainRecord .invalidOperand s.ip 15))

/-- WMEM (R162): the Word at the address becomes the value and every other Word stays, for an address below MEM_SIZE; OutOfBounds from
MEM_SIZE on. The memory's canonical form (an invariant of the model) is the premise of reading the Word back. -/
def Obligations.WmemWritesWord : Prop :=
  (∀ (s : State) (a b : Operand) (addr v : Word), operandVal s a = .ok addr → operandVal s b = .ok v →
    (addr.toNat < s.memSize → Memory.wf s.mem = true → ∃ m : Memory,
      exec (.wmem a b) s = .next { s with mem := m, ip := s.ip + 3 } ∧ Memory.wf m = true ∧
      Memory.read addr.toNat m = v ∧ ∀ x, x ≠ addr.toNat → Memory.read x m = Memory.read x s.mem) ∧
    (s.memSize ≤ addr.toNat → exec (.wmem a b) s =
      .next (s.faultedWith (boundsRecord .wmemWrite addr s.ip 16)))) ∧
  ∀ (s : State) (a b : Operand), a.isValue = false ∨ b.isValue = false →
    exec (.wmem a b) s = .next (s.faultedWith (plainRecord .invalidOperand s.ip 16))

/-! ### Input and output -/

/-- OUT (R172): the low 8 bits of the value are appended to the output. -/
def Obligations.OutAppendsLowByte : Prop :=
  (∀ (s : State) (a : Operand) (x : Word), operandVal s a = .ok x →
    exec (.out a) s = .next { s with output := s.output ++ [BitVec.ofNat 8 (x.toNat % 256)], ip := s.ip + 2 }) ∧
  ∀ (s : State) (a : Operand), a.isValue = false →
    exec (.out a) s = .next (s.faultedWith (plainRecord .invalidOperand s.ip 19))

/-- IN that completes (R173, R174): a plain byte is delivered; an override `|digits|` of value at most 65535 is written to r7 first, then
the byte after it is delivered as it is. -/
def Obligations.InDeliversByteAndOverride : Prop :=
  ∀ (s : State) (d : Reg), s.inPhase = none →
    (∀ (c : Byte) (rest : List Byte), s.input = c :: rest → c ≠ 124 →
      exec (.inp (.reg d)) s = .next { s with
        regs := Regs.write s.regs d (c.setWidth 16), ip := s.ip + 2, input := rest }) ∧
    (∀ (ds : List Byte) (c : Byte) (rest : List Byte), ds ≠ [] → ds.all isDigit = true → decimalValue ds ≤ 65535 →
      s.input = 124 :: ds ++ 124 :: c :: rest →
      exec (.inp (.reg d)) s = .next { s with
        regs := Regs.write (Regs.write s.regs .r7 (BitVec.ofNat 16 (decimalValue ds))) d (c.setWidth 16)
        ip := s.ip + 2
        input := rest })

/-- IN that faults (R173, R174, R211, R212): end-of-input at any of its reads, and a malformed override; the bytes read stay consumed and
no register is written (R205). A destination that is no register faults before any byte is read. -/
def Obligations.InFaultsConsumeOnlyInput : Prop :=
  (∀ (s : State) (d : Reg), s.inPhase = none →
    (s.input = [] → s.inputEnded = true →
      exec (.inp (.reg d)) s = .next (s.faultedWith (plainRecord .inputExhausted s.ip 20))) ∧
    (∀ ds : List Byte, ds.all isDigit = true → decimalValue ds ≤ 65535 → s.inputEnded = true →
      s.input = 124 :: ds ∨ (ds ≠ [] ∧ s.input = 124 :: ds ++ [124]) →
      exec (.inp (.reg d)) s =
        .next ({ s with input := [] }.faultedWith (plainRecord .inputExhausted s.ip 20))) ∧
    (∀ rest : List Byte, s.input = 124 :: 124 :: rest →
      exec (.inp (.reg d)) s =
        .next ({ s with input := rest }.faultedWith (plainRecord .invalidInput s.ip 20))) ∧
    (∀ (ds : List Byte) (b : Byte) (rest : List Byte), ds.all isDigit = true → decimalValue ds ≤ 65535 →
      s.input = 124 :: ds ++ b :: rest → (isDigit b = false ∧ b ≠ 124) ∨ (isDigit b = true ∧ 65535 < decimalValue (ds ++ [b])) →
      exec (.inp (.reg d)) s =
        .next ({ s with input := rest }.faultedWith (plainRecord .invalidInput s.ip 20)))) ∧
  ∀ (s : State) (a : Operand), a.isReg = false →
    exec (.inp a) s = .next (s.faultedWith (plainRecord .invalidOperand s.ip 20))

/-- The override example of the source (R175): on `|1234|X` seven bytes are consumed, r7 is 1234 and r0 is 88. -/
def Obligations.InOverrideExample : Prop :=
  ∀ s : State, s.inPhase = none → s.input = [124, 49, 50, 51, 52, 124, 88] →
    ∃ t, exec (.inp (.reg .r0)) s = .next t ∧ t.readReg .r7 = 1234 ∧ t.readReg .r0 = 88 ∧ t.input = []

/-- While the host's next answer is missing the IN waits (R170): no register and no IP changes, and no polling point passes even with the
latch set (R214); the wait is never lifted by the model. The bytes already answered are consumed, and the phase kept is the model's own
field (log 3). The three forms of an unfinished input, then a wait that meets no answer in whatever phase. -/
def Obligations.InWaitsWithoutPolling : Prop :=
  ∀ (s : State) (d : Reg), s.runState = .running → s.fetch = .ok (.inp (.reg d)) → s.inputEnded = false →
    (s.inPhase = none ∧ (s.input = [] ∨ ∃ ds : List Byte, ds.all isDigit = true ∧ decimalValue ds ≤ 65535 ∧
      (s.input = 124 :: ds ∨ (ds ≠ [] ∧ s.input = 124 :: ds ++ [124])))) ∨ s.input = [] →
    ∃ p, step s = .next { s with input := [], inPhase := some p } ∧
      step { s with input := [], inPhase := some p } = .next { s with input := [], inPhase := some p }

/-- An IN that waited goes on where it stopped: with the bytes answered later it does what it would have done had all the bytes been
there at once (R170). -/
def Obligations.InResumesAfterWait : Prop :=
  ∀ (s t : State) (a : Operand) (p : InPhase) (xs ys : List Byte) (ended : Bool),
    exec (.inp a) { s with input := xs, inputEnded := false } = .next t → t.inPhase = some p →
    exec (.inp a) { t with input := ys, inputEnded := ended } =
      exec (.inp a) { s with input := xs ++ ys, inputEnded := ended }

/-! ### Faults -/

/-- A fault is precise (R205): the faulting step changes nothing but RunningFlag, the run state, the record and, for an IN, the input bytes
it read. -/
def Obligations.FaultsArePrecise : Prop :=
  ∀ s t : State, s.runState = .running → step s = .next t → t.failed →
    ∃ (r : FaultRecord) (rest : List Byte), t = { s with input := rest }.faultedWith r ∧
      (∃ read, s.input = read ++ rest) ∧ (rest = s.input ∨ ∃ a, s.fetch = .ok (.inp a))

/-- The fault record (R206): the code is set; FaultIP is the IP at the start of the step; FaultOpcode is the opcode word, valid unless the
opcode fetch failed; for OutOfBounds, FaultAddr is the address out of bounds, by the kind of access. The premises on sizes are the
invariant's. -/
def Obligations.FaultRecordNamesIpOpcodeAndAddress : Prop :=
  ∀ s t : State, s.runState = .running → s.programSize ≤ s.memSize → s.memSize ≤ 32768 → step s = .next t → t.failed →
    let r := t.faultRecord
    r.faultCode ≠ .none ∧ r.faultIp = s.ip ∧
    (r.opcodeValid = true → r.faultOpcode = Memory.read s.ip.toNat s.mem) ∧
    (r.opcodeValid = false ↔ r.faultCode = .outOfBounds ∧ r.faultAccess = .opcodeFetch) ∧
    (r.addrValid = true ↔ r.faultCode = .outOfBounds) ∧
    (r.faultCode ≠ .outOfBounds → r.faultAccess = .opcodeFetch) ∧
    (r.faultCode = .outOfBounds →
      match r.faultAccess with
      | .opcodeFetch => r.faultAddr = s.ip ∧ s.programSize ≤ s.ip.toNat
      | .operandFetch => ∃ k, 1 ≤ k ∧ k ≤ 3 ∧ r.faultAddr.toNat = s.ip.toNat + k ∧ s.memSize ≤ s.ip.toNat + k
      | .rmemRead => ∃ a b, s.fetch = .ok (.rmem a b) ∧ operandVal s b = .ok r.faultAddr ∧
          s.memSize ≤ r.faultAddr.toNat
      | .wmemWrite => ∃ a b, s.fetch = .ok (.wmem a b) ∧ operandVal s a = .ok r.faultAddr ∧
          s.memSize ≤ r.faultAddr.toNat)

/-- The status word and the exit status (R207). -/
def Obligations.StatusWordFields : Prop :=
  ∀ s : State,
    s.statusWord.extractLsb' 2 2 = 0 ∧
    (s.runState = .running → s.statusWord = 0x00 ∧ s.exitStatus = none) ∧
    (s.runState = .halted .halt → s.statusWord = 0x01 ∧ s.exitStatus = some 0) ∧
    (s.runState = .halted .suspend → s.statusWord = 0x02 ∧ s.exitStatus = some 1) ∧
    (s.runState = .faulted → s.statusWord.toNat = 3 + 16 * s.faultRecord.faultCode.bits.toNat ∧
      s.exitStatus = some (10 + s.faultRecord.faultCode.bits.toNat))

/-! ### Load, snapshot and resume -/

/-- Image load (R242): words low byte first at their addresses, PROGRAM_SIZE the number of Words; an odd or too long image is refused, the
empty one accepted. The headroom clause is the model's choice (log 6): the optional parameter HEADROOM_INIT of R11, "a Word per address,
default 0", is a list counted from PROGRAM_SIZE on, with 0 after it; for the default, the empty list, the clause gives the 0 of R50. -/
def Obligations.LoadPlacesImageLowByteFirst : Prop :=
  ∀ (s : State) (image : List Byte),
    (image.length % 2 = 1 → s.load image = .error .oddImage) ∧
    (image.length % 2 = 0 → 2 * s.config.memSize < image.length → s.load image = .error .imageTooLong) ∧
    (image.length % 2 = 0 → image.length ≤ 2 * s.config.memSize → ∃ t, s.load image = .ok t ∧
      image.length = 2 * t.programSize ∧
      (∀ i, i < t.programSize → (Memory.read i t.mem).toNat =
        (image.getD (2 * i) 0).toNat + 256 * (image.getD (2 * i + 1) 0).toNat) ∧
      (∀ i, t.programSize ≤ i → i < t.memSize →
        Memory.read i t.mem = s.config.headroomInit.getD (i - t.programSize) 0))

/-- Reset (R240): every field after a load, from whatever state the old run was in, the image at its addresses; with the default
parameters the registers and the headroom are 0. The output is the host's and stays. -/
def Obligations.LoadResetsEveryField : Prop :=
  ∀ (s t : State) (image : List Byte), s.load image = .ok t →
    t.runState = .running ∧ t.runningFlag = true ∧ t.ip = 0 ∧ t.stack = [] ∧ t.regs = s.config.regInit ∧
    t.memSize = s.config.memSize ∧ t.faultRecord = FaultRecord.clear ∧ t.cancel = false ∧
    t.output = s.output ∧ t.config = s.config ∧ image.length = 2 * t.programSize ∧
    (∀ i, i < t.programSize → (Memory.read i t.mem).toNat =
      (image.getD (2 * i) 0).toNat + 256 * (image.getD (2 * i + 1) 0).toNat) ∧
    (s.config = Config.default → (∀ r, t.readReg r = 0) ∧ t.memSize = 32768 ∧
      ∀ a, t.programSize ≤ a → Memory.read a t.mem = 0)

/-- The reset state of the model is the load of the empty image (R242, R240; which image is the model's choice, log 8). -/
def Obligations.ResetIsLoadOfEmptyImage : Prop :=
  State.reset.load [] = .ok State.reset ∧ State.reset.config = Config.default ∧ State.reset.programSize = 0

/-- Resume (R217): a valid snapshot is restored whatever the run state, each field as it stands in the snapshot (its RunningFlag is ignored); the fault record and the
latch are cleared; the streams are not touched. -/
def Obligations.RestoreInstallsSnapshot : Prop :=
  ∀ (s : State) (x : Snapshot), x.restorable s.config = true → ∃ t, s.host (.restore x) = .ok t ∧
    t.ip = x.ip ∧ [t.regs.r0, t.regs.r1, t.regs.r2, t.regs.r3, t.regs.r4, t.regs.r5, t.regs.r6, t.regs.r7] = x.regs ∧
    t.stack.reverse = x.stack ∧ t.mem = x.mem ∧ t.memSize = x.memSize ∧ t.programSize = x.programSize ∧
    t.runningFlag = true ∧ t.runState = .running ∧ t.faultRecord = FaultRecord.clear ∧ t.cancel = false ∧
    t.input = s.input ∧ t.inputEnded = s.inputEnded ∧ t.output = s.output ∧ t.config = s.config

/-- Restore validity (R218): a snapshot without 8 registers, with sizes out of range or with a stack too deep is refused, and no machine is
started from it. -/
def Obligations.RestoreRefusesInvalidSnapshot : Prop :=
  ∀ (s : State) (x : Snapshot),
    x.regs.length ≠ 8 ∨ x.memSize < x.programSize ∨ 32768 < x.memSize ∨
      s.config.stackAllows x.stack.length = false →
    ∃ r, s.host (.restore x) = .error (.snapshotRefused r)

/-- The resume contract (R217): from a machine suspended at a polling point, the restored machine runs, step for step and for any number of
steps, as the machine would have run without the suspend: the same state but for the snapshots in the host's hands. -/
def Obligations.ResumedRunEqualsUninterruptedRun : Prop :=
  ∀ s : State, s.Inv → s.runState = .running → s.inPhase = none →
    ∃ t, s.suspend.restore s.snapshot = .ok t ∧
      ∀ n, ∃ u v, core.run n t = .next u ∧ core.run n { s with cancel := false } = .next v ∧
        u = { v with snapshots := u.snapshots }

/-! ### Invariants and whole-machine rules -/

/-- The reset state meets the invariant. -/
def Obligations.ResetMeetsInvariant : Prop := State.reset.Inv

/-- Every step keeps the invariant: canonical memory inside MEM_SIZE, the sizes' order (R8), the stack within STACK_CAP (R23), RunningFlag
exactly when Running (R27), the record exactly when Faulted (R29), snapshots that can be restored (R218). -/
def Obligations.StepKeepsInvariant : Prop :=
  ∀ s t : State, s.Inv → step s = .next t → t.Inv

/-- Every interaction of the host keeps the invariant (R226). -/
def Obligations.HostKeepsInvariant : Prop :=
  ∀ (s t : State) (e : HostEvent), s.Inv → s.host e = .ok t → t.Inv

/-- The stack "grows/shrinks only via PUSH/POP/CALL/RET", by one top entry (R23 to R25). -/
def Obligations.StackChangesOnlyByFourInstructions : Prop :=
  ∀ s t : State, step s = .next t →
    t.stack = s.stack ∨
    ((∃ v, t.stack = v :: s.stack) ∧ ∃ a, s.fetch = .ok (.push a) ∨ s.fetch = .ok (.call a)) ∨
    ((∃ v, s.stack = v :: t.stack) ∧ ((∃ a, s.fetch = .ok (.pop a)) ∨ s.fetch = .ok .ret))

/-- A register changes only as the destination of the step's instruction, or r7 by an IN (the `writes register` column of R21, R174). -/
def Obligations.RegistersChangeOnlyAsDestination : Prop :=
  ∀ (s t : State) (r : Reg), step s = .next t → t.readReg r ≠ s.readReg r →
    ∃ i, s.fetch = .ok i ∧ (destOperand i = some (.reg r) ∨ (r = .r7 ∧ ∃ a, i = .inp a))

/-- Only WMEM changes memory, and only the Word at its address, below MEM_SIZE, to its value (R43, R46, R47). -/
def Obligations.MemoryChangesOnlyByWmem : Prop :=
  ∀ (s t : State) (x : Nat), Memory.wf s.mem = true → step s = .next t → Memory.read x t.mem ≠ Memory.read x s.mem →
    x < s.memSize ∧ ∃ a b addr, s.fetch = .ok (.wmem a b) ∧ operandVal s a = .ok addr ∧ addr.toNat = x ∧
      operandVal s b = .ok (Memory.read x t.mem)

/-- PROGRAM_SIZE, MEM_SIZE and the parameters are never changed by a step (R26, R8). -/
def Obligations.StepKeepsSizes : Prop :=
  ∀ s t : State, step s = .next t → s.sameSizes t

/-- The output stream only grows, by the low byte of an OUT's value, and no fault writes there (R171). -/
def Obligations.OutputGrowsOnlyByOut : Prop :=
  ∀ s t : State, step s = .next t →
    t.output = s.output ∨
    ∃ a v, s.fetch = .ok (.out a) ∧ operandVal s a = .ok v ∧ t.output = s.output ++ [v.setWidth 8] ∧ ¬ t.failed

/-- A Running machine stops only by HALT, by a suspend with the latch set, or by a fault (R27, R28, R227). -/
def Obligations.RunningEndsOnlyByHaltSuspendOrFault : Prop :=
  ∀ s t : State, s.runState = .running → step s = .next t → t.quiescent →
    (t.endedNormally ∧ s.fetch = .ok .halt) ∨ (t.runState = .halted .suspend ∧ s.cancel = true ∧ t.cancel = false) ∨
      t.failed

/-- The address after an instruction never wraps and is within memory (R22), for the states the invariant allows. -/
def Obligations.NextAddressNeverWraps : Prop :=
  ∀ (s : State) (i : Instr), s.programSize ≤ s.memSize → s.memSize ≤ 32768 → s.fetch = .ok i →
    (s.nextIp i).toNat = s.ip.toNat + i.length ∧ (s.nextIp i).toNat ≤ s.memSize

/-! ### Frames -/

/-- SET, EQ, GT, ADD, MULT, MOD, AND, OR, NOT and RMEM change no register but the destination, no stack entry, no Word of memory, no
stream, latch or size; a fault changes only what R205 says. -/
def Obligations.RegisterResultFrame : Prop :=
  ∀ (d : Reg) (b c : Operand) (s t : State),
    ∀ i ∈ [Instr.set (.reg d) b, .eq (.reg d) b c, .gt (.reg d) b c, .add (.reg d) b c, .mult (.reg d) b c,
      .mod (.reg d) b c, .and (.reg d) b c, .or (.reg d) b c, .not (.reg d) b, .rmem (.reg d) b],
    exec i s = .next t →
    t = s.faultedWith t.faultRecord ∨
    (s.sameRegsBut t [d] ∧ t.stack = s.stack ∧ s.sameMemoryBut t [] ∧ s.sameSizes t ∧ s.sameControl t ∧ s.sameLatch t ∧
      s.sameInput t ∧ t.output = s.output ∧ t.ip = s.nextIp i)

/-- PUSH, POP, CALL and RET change no register but POP's destination, no Word of memory, no stream, latch or size. -/
def Obligations.StackFrame : Prop :=
  ∀ (a : Operand) (s t : State), ∀ i ∈ [Instr.push a, .pop a, .call a, .ret], exec i s = .next t →
    t = s.faultedWith t.faultRecord ∨
    ((∀ r, t.readReg r ≠ s.readReg r → i = .pop (.reg r)) ∧ s.sameMemoryBut t [] ∧ s.sameSizes t ∧ s.sameControl t ∧
      s.sameLatch t ∧ s.sameInput t ∧ t.output = s.output)

/-- JMP, JT, JF and NOOP change nothing but the IP. -/
def Obligations.JumpFrame : Prop :=
  ∀ (a b : Operand) (s t : State), ∀ i ∈ [Instr.jmp a, .jt a b, .jf a b, .noop], exec i s = .next t →
    t = s.faultedWith t.faultRecord ∨
    (s.sameRegsBut t [] ∧ t.stack = s.stack ∧ s.sameMemoryBut t [] ∧ s.sameSizes t ∧ s.sameControl t ∧ s.sameLatch t ∧
      s.sameInput t ∧ t.output = s.output)

/-- WMEM changes no Word of memory but the one at the address its first operand gives, and no register, stack entry or stream. -/
def Obligations.StoreFrame : Prop :=
  ∀ (a b : Operand) (s t : State), exec (.wmem a b) s = .next t →
    t = s.faultedWith t.faultRecord ∨
    ((∀ addr, operandVal s a = .ok addr → s.sameMemoryBut t [addr.toNat]) ∧ s.sameRegsBut t [] ∧ t.stack = s.stack ∧
      s.sameSizes t ∧ s.sameControl t ∧ s.sameLatch t ∧ s.sameInput t ∧ t.output = s.output)

/-- OUT changes only the output and the IP; IN only its destination, r7, the input and the IP: a completed IN with no override byte in front
leaves r7. -/
def Obligations.StreamFrame : Prop :=
  (∀ (a : Operand) (s t : State), exec (.out a) s = .next t →
    t = s.faultedWith t.faultRecord ∨
    (s.sameRegsBut t [] ∧ t.stack = s.stack ∧ s.sameMemoryBut t [] ∧ s.sameSizes t ∧ s.sameControl t ∧ s.sameLatch t ∧
      s.sameInput t)) ∧
  ∀ (d : Reg) (s t : State), exec (.inp (.reg d)) s = .next t →
    t = { s with input := t.input }.faultedWith t.faultRecord ∨
    (s.sameRegsBut t [d, .r7] ∧ (s.inPhase = none → s.input.head? ≠ some 124 → s.sameRegsBut t [d]) ∧
      t.stack = s.stack ∧ s.sameMemoryBut t [] ∧ s.sameSizes t ∧ t.runState = s.runState ∧
      t.runningFlag = s.runningFlag ∧ t.faultRecord = s.faultRecord ∧ s.sameLatch t ∧ t.output = s.output ∧
      t.inputEnded = s.inputEnded)
end

