-- ==== Sys2Proof/Laws/Decode.lean ====
section
/-! SUPPORT. Operand words, bytes and the opcode map: decoding undoes encoding, piece by piece. -/

namespace Sys2Proof

theorem Reg.ofBits_index (r : Reg) : Reg.ofBits ((32768 + r.index).setWidth 3) = r := by
  cases r <;> rfl

theorem Reg.index_lt (r : Reg) : r.index.toNat < 8 := by
  cases r <;> decide

theorem Reg.index_ofBits (i : BitVec 3) : (Reg.ofBits i).index = i.setWidth 16 := by
  revert i; decide

theorem Operand.decode_lit (w : Word) (h : w.toNat < 32768) : Operand.decode w = .lit (w.setWidth 15) := by
  simp [Operand.decode, h]

theorem Operand.decode_reg (w : Word) (h : 32768 ≤ w.toNat) (h' : w.toNat < 32776) :
    Operand.decode w = .reg (Reg.ofBits (w.setWidth 3)) := by
  have : ¬ w.toNat < 32768 := by omega
  simp [Operand.decode, this, h']

theorem Operand.decode_invalid (w : Word) (h : 32776 ≤ w.toNat) : Operand.decode w = .invalid w := by
  have h1 : ¬ w.toNat < 32768 := by omega
  have h2 : ¬ w.toNat < 32776 := by omega
  simp [Operand.decode, h1, h2]

theorem Operand.encode_reg_toNat (r : Reg) : (Operand.reg r).encode.toNat = 32768 + r.index.toNat := by
  cases r <;> rfl

/-- Decoding the word of a well-formed operand gives it back. -/
theorem Operand.decode_encode (o : Operand) (h : o.wf = true) : Operand.decode o.encode = o := by
  cases o with
  | lit n =>
    have hn : (n.setWidth 16).toNat < 32768 := by
      have := n.isLt
      simp only [BitVec.toNat_setWidth]
      omega
    rw [Operand.encode, Operand.decode_lit _ hn]
    congr 1
    apply BitVec.eq_of_toNat_eq
    have := n.isLt
    simp only [BitVec.toNat_setWidth]
    omega
  | reg r =>
    have hr := Reg.index_lt r
    have he := Operand.encode_reg_toNat r
    rw [Operand.decode_reg _ (by omega) (by omega)]
    exact congrArg Operand.reg (Reg.ofBits_index r)
  | invalid w =>
    simp only [Operand.wf, decide_eq_true_eq] at h
    exact Operand.decode_invalid w h

/-- Encoding the class of a word gives the word back. -/
theorem Operand.encode_decode (w : Word) : (Operand.decode w).encode = w := by
  by_cases h1 : w.toNat < 32768
  · rw [Operand.decode_lit w h1, Operand.encode]
    apply BitVec.eq_of_toNat_eq
    simp only [BitVec.toNat_setWidth]
    omega
  · by_cases h2 : w.toNat < 32776
    · rw [Operand.decode_reg w (by omega) h2, Operand.encode, Reg.index_ofBits]
      apply BitVec.eq_of_toNat_eq
      have hbase : (32768 : Word).toNat = 32768 := rfl
      simp only [BitVec.toNat_add, BitVec.toNat_setWidth, hbase]
      omega
    · rw [Operand.decode_invalid w (by omega), Operand.encode]

/-- A decoded operand is well-formed. -/
theorem Operand.wf_decode (w : Word) : (Operand.decode w).wf = true := by
  by_cases h1 : w.toNat < 32768
  · rw [Operand.decode_lit w h1]; rfl
  · by_cases h2 : w.toNat < 32776
    · rw [Operand.decode_reg w (by omega) h2]; rfl
    · rw [Operand.decode_invalid w (by omega)]
      simp only [Operand.wf, decide_eq_true_eq]
      omega

/-- A word of 22 or more is no opcode (R69). -/
theorem opcodeRow_none (op : Word) (h : 22 ≤ op.toNat) : opcodeRow op = none := by
  unfold opcodeRow
  split <;> first | rfl | omega

/-- An opcode word of the map is below 22 (R66). -/
theorem opcodeRow_lt (op : Word) (f : Format) (h : opcodeRow op = some f) : op.toNat < 22 := by
  by_contra hge
  rw [opcodeRow_none op (by omega)] at h
  cases h

/-- The words of bytes of words: pairing undoes splitting. -/
theorem wordsOfBytes_bytesOfWords (ws : List Word) : wordsOfBytes (bytesOfWords ws) = some ws := by
  induction ws with
  | nil => rfl
  | cons w ws ih =>
    have hw : ((w >>> 8).setWidth 8 ++ w.setWidth 8 : BitVec 16) = w := by
      apply BitVec.eq_of_getLsbD_eq
      intro i hi
      simp only [BitVec.getLsbD_append, BitVec.getLsbD_setWidth, BitVec.getLsbD_ushiftRight]
      by_cases h8 : i < 8
      · simp [h8]
      · have h8' : i - 8 < 8 := by omega
        have hadd : 8 + (i - 8) = i := by omega
        simp [h8, h8', hadd]
    simp only [bytesOfWords, wordsOfBytes, ih, Option.map_some, hw]

/-- The value of a pair of bytes: low byte first (R44). -/
theorem append_bytes_toNat (hi lo : Byte) : (hi ++ lo : BitVec 16).toNat = lo.toNat + 256 * hi.toNat := by
  have h1 := lo.isLt
  rw [BitVec.toNat_append, Nat.shiftLeft_eq, ← Nat.shiftLeft_eq, ← Nat.shiftLeft_add_eq_or_of_lt h1, Nat.shiftLeft_eq]
  omega

theorem wordsOfBytes_length (bs : List Byte) (ws : List Word) (h : wordsOfBytes bs = some ws) :
    bs.length = 2 * ws.length := by
  induction ws generalizing bs with
  | nil =>
    match bs, h with
    | [], _ => rfl
    | _ :: _ :: rest, h =>
      simp only [wordsOfBytes] at h
      cases hr : wordsOfBytes rest <;> simp [hr] at h
  | cons w ws ih =>
    match bs, h with
    | [], h => simp [wordsOfBytes] at h
    | [_], h => simp [wordsOfBytes] at h
    | lo :: hi :: rest, h =>
      simp only [wordsOfBytes] at h
      cases hr : wordsOfBytes rest with
      | none => simp [hr] at h
      | some ws' =>
        simp only [hr, Option.map_some, Option.some.injEq, List.cons.injEq] at h
        obtain ⟨-, rfl⟩ := h
        have := ih rest hr
        simp only [List.length_cons]
        omega

/-- Pairing fails exactly on an odd number of bytes (R242). -/
theorem wordsOfBytes_eq_none_iff (bs : List Byte) : wordsOfBytes bs = none ↔ bs.length % 2 = 1 := by
  match bs with
  | [] => simp [wordsOfBytes]
  | [_] => simp [wordsOfBytes]
  | _ :: _ :: rest =>
    have ih := wordsOfBytes_eq_none_iff rest
    simp only [wordsOfBytes, Option.map_eq_none_iff, ih, List.length_cons]
    omega

end Sys2Proof
end

