-- ==== Sys2Proof/Laws/State.lean ====
section
/-! SUPPORT. One lemma per field per update of the state, so that no proof unfolds a record update. -/

namespace Sys2Proof
namespace Machine

/-! ### writeReg -/

@[simp] theorem State.writeReg_config (s : State) (r : Reg) (v : Word) : (s.writeReg r v).config = s.config := rfl
@[simp] theorem State.writeReg_regs (s : State) (r : Reg) (v : Word) : (s.writeReg r v).regs = Regs.write s.regs r v := rfl
@[simp] theorem State.writeReg_ip (s : State) (r : Reg) (v : Word) : (s.writeReg r v).ip = s.ip := rfl
@[simp] theorem State.writeReg_stack (s : State) (r : Reg) (v : Word) : (s.writeReg r v).stack = s.stack := rfl
@[simp] theorem State.writeReg_mem (s : State) (r : Reg) (v : Word) : (s.writeReg r v).mem = s.mem := rfl
@[simp] theorem State.writeReg_memSize (s : State) (r : Reg) (v : Word) : (s.writeReg r v).memSize = s.memSize := rfl
@[simp] theorem State.writeReg_programSize (s : State) (r : Reg) (v : Word) : (s.writeReg r v).programSize = s.programSize := rfl
@[simp] theorem State.writeReg_runningFlag (s : State) (r : Reg) (v : Word) : (s.writeReg r v).runningFlag = s.runningFlag := rfl
@[simp] theorem State.writeReg_runState (s : State) (r : Reg) (v : Word) : (s.writeReg r v).runState = s.runState := rfl
@[simp] theorem State.writeReg_faultRecord (s : State) (r : Reg) (v : Word) : (s.writeReg r v).faultRecord = s.faultRecord := rfl
@[simp] theorem State.writeReg_cancel (s : State) (r : Reg) (v : Word) : (s.writeReg r v).cancel = s.cancel := rfl
@[simp] theorem State.writeReg_inPhase (s : State) (r : Reg) (v : Word) : (s.writeReg r v).inPhase = s.inPhase := rfl
@[simp] theorem State.writeReg_input (s : State) (r : Reg) (v : Word) : (s.writeReg r v).input = s.input := rfl
@[simp] theorem State.writeReg_inputEnded (s : State) (r : Reg) (v : Word) : (s.writeReg r v).inputEnded = s.inputEnded := rfl
@[simp] theorem State.writeReg_output (s : State) (r : Reg) (v : Word) : (s.writeReg r v).output = s.output := rfl
@[simp] theorem State.writeReg_snapshots (s : State) (r : Reg) (v : Word) : (s.writeReg r v).snapshots = s.snapshots := rfl

/-! ### jump -/

@[simp] theorem State.jump_config (s : State) (t : Word) : (s.jump t).config = s.config := rfl
@[simp] theorem State.jump_regs (s : State) (t : Word) : (s.jump t).regs = s.regs := rfl
@[simp] theorem State.jump_ip (s : State) (t : Word) : (s.jump t).ip = t := rfl
@[simp] theorem State.jump_stack (s : State) (t : Word) : (s.jump t).stack = s.stack := rfl
@[simp] theorem State.jump_mem (s : State) (t : Word) : (s.jump t).mem = s.mem := rfl
@[simp] theorem State.jump_memSize (s : State) (t : Word) : (s.jump t).memSize = s.memSize := rfl
@[simp] theorem State.jump_programSize (s : State) (t : Word) : (s.jump t).programSize = s.programSize := rfl
@[simp] theorem State.jump_runningFlag (s : State) (t : Word) : (s.jump t).runningFlag = s.runningFlag := rfl
@[simp] theorem State.jump_runState (s : State) (t : Word) : (s.jump t).runState = s.runState := rfl
@[simp] theorem State.jump_faultRecord (s : State) (t : Word) : (s.jump t).faultRecord = s.faultRecord := rfl
@[simp] theorem State.jump_cancel (s : State) (t : Word) : (s.jump t).cancel = s.cancel := rfl
@[simp] theorem State.jump_inPhase (s : State) (t : Word) : (s.jump t).inPhase = s.inPhase := rfl
@[simp] theorem State.jump_input (s : State) (t : Word) : (s.jump t).input = s.input := rfl
@[simp] theorem State.jump_inputEnded (s : State) (t : Word) : (s.jump t).inputEnded = s.inputEnded := rfl
@[simp] theorem State.jump_output (s : State) (t : Word) : (s.jump t).output = s.output := rfl
@[simp] theorem State.jump_snapshots (s : State) (t : Word) : (s.jump t).snapshots = s.snapshots := rfl

/-! ### advance -/

@[simp] theorem State.advance_config (s : State) (i : Instr) : (s.advance i).config = s.config := rfl
@[simp] theorem State.advance_regs (s : State) (i : Instr) : (s.advance i).regs = s.regs := rfl
@[simp] theorem State.advance_ip (s : State) (i : Instr) : (s.advance i).ip = s.nextIp i := rfl
@[simp] theorem State.advance_stack (s : State) (i : Instr) : (s.advance i).stack = s.stack := rfl
@[simp] theorem State.advance_mem (s : State) (i : Instr) : (s.advance i).mem = s.mem := rfl
@[simp] theorem State.advance_memSize (s : State) (i : Instr) : (s.advance i).memSize = s.memSize := rfl
@[simp] theorem State.advance_programSize (s : State) (i : Instr) : (s.advance i).programSize = s.programSize := rfl
@[simp] theorem State.advance_runningFlag (s : State) (i : Instr) : (s.advance i).runningFlag = s.runningFlag := rfl
@[simp] theorem State.advance_runState (s : State) (i : Instr) : (s.advance i).runState = s.runState := rfl
@[simp] theorem State.advance_faultRecord (s : State) (i : Instr) : (s.advance i).faultRecord = s.faultRecord := rfl
@[simp] theorem State.advance_cancel (s : State) (i : Instr) : (s.advance i).cancel = s.cancel := rfl
@[simp] theorem State.advance_inPhase (s : State) (i : Instr) : (s.advance i).inPhase = s.inPhase := rfl
@[simp] theorem State.advance_input (s : State) (i : Instr) : (s.advance i).input = s.input := rfl
@[simp] theorem State.advance_inputEnded (s : State) (i : Instr) : (s.advance i).inputEnded = s.inputEnded := rfl
@[simp] theorem State.advance_output (s : State) (i : Instr) : (s.advance i).output = s.output := rfl
@[simp] theorem State.advance_snapshots (s : State) (i : Instr) : (s.advance i).snapshots = s.snapshots := rfl

/-! ### raise -/

@[simp] theorem State.raise_config (s : State) (c : Cause) (op : Option Word) : (s.raise c op).config = s.config := rfl
@[simp] theorem State.raise_regs (s : State) (c : Cause) (op : Option Word) : (s.raise c op).regs = s.regs := rfl
@[simp] theorem State.raise_ip (s : State) (c : Cause) (op : Option Word) : (s.raise c op).ip = s.ip := rfl
@[simp] theorem State.raise_stack (s : State) (c : Cause) (op : Option Word) : (s.raise c op).stack = s.stack := rfl
@[simp] theorem State.raise_mem (s : State) (c : Cause) (op : Option Word) : (s.raise c op).mem = s.mem := rfl
@[simp] theorem State.raise_memSize (s : State) (c : Cause) (op : Option Word) : (s.raise c op).memSize = s.memSize := rfl
@[simp] theorem State.raise_programSize (s : State) (c : Cause) (op : Option Word) : (s.raise c op).programSize = s.programSize := rfl
@[simp] theorem State.raise_runningFlag (s : State) (c : Cause) (op : Option Word) : (s.raise c op).runningFlag = false := rfl
@[simp] theorem State.raise_runState (s : State) (c : Cause) (op : Option Word) : (s.raise c op).runState = .faulted := rfl
@[simp] theorem State.raise_faultRecord (s : State) (c : Cause) (op : Option Word) : (s.raise c op).faultRecord = FaultRecord.ofCause c s.ip op := rfl
@[simp] theorem State.raise_cancel (s : State) (c : Cause) (op : Option Word) : (s.raise c op).cancel = s.cancel := rfl
@[simp] theorem State.raise_inPhase (s : State) (c : Cause) (op : Option Word) : (s.raise c op).inPhase = none := rfl
@[simp] theorem State.raise_input (s : State) (c : Cause) (op : Option Word) : (s.raise c op).input = s.input := rfl
@[simp] theorem State.raise_inputEnded (s : State) (c : Cause) (op : Option Word) : (s.raise c op).inputEnded = s.inputEnded := rfl
@[simp] theorem State.raise_output (s : State) (c : Cause) (op : Option Word) : (s.raise c op).output = s.output := rfl
@[simp] theorem State.raise_snapshots (s : State) (c : Cause) (op : Option Word) : (s.raise c op).snapshots = s.snapshots := rfl

/-! ### suspend -/

@[simp] theorem State.suspend_config (s : State) : (s.suspend).config = s.config := rfl
@[simp] theorem State.suspend_regs (s : State) : (s.suspend).regs = s.regs := rfl
@[simp] theorem State.suspend_ip (s : State) : (s.suspend).ip = s.ip := rfl
@[simp] theorem State.suspend_stack (s : State) : (s.suspend).stack = s.stack := rfl
@[simp] theorem State.suspend_mem (s : State) : (s.suspend).mem = s.mem := rfl
@[simp] theorem State.suspend_memSize (s : State) : (s.suspend).memSize = s.memSize := rfl
@[simp] theorem State.suspend_programSize (s : State) : (s.suspend).programSize = s.programSize := rfl
@[simp] theorem State.suspend_runningFlag (s : State) : (s.suspend).runningFlag = false := rfl
@[simp] theorem State.suspend_runState (s : State) : (s.suspend).runState = .halted .suspend := rfl
@[simp] theorem State.suspend_faultRecord (s : State) : (s.suspend).faultRecord = s.faultRecord := rfl
@[simp] theorem State.suspend_cancel (s : State) : (s.suspend).cancel = false := rfl
@[simp] theorem State.suspend_inPhase (s : State) : (s.suspend).inPhase = s.inPhase := rfl
@[simp] theorem State.suspend_input (s : State) : (s.suspend).input = s.input := rfl
@[simp] theorem State.suspend_inputEnded (s : State) : (s.suspend).inputEnded = s.inputEnded := rfl
@[simp] theorem State.suspend_output (s : State) : (s.suspend).output = s.output := rfl
@[simp] theorem State.suspend_snapshots (s : State) : (s.suspend).snapshots = s.snapshots ++ [s.snapshot] := rfl

/-! ### boot -/

@[simp] theorem State.boot_config (s : State) (image : List Word) : (s.boot image).config = s.config := rfl
@[simp] theorem State.boot_regs (s : State) (image : List Word) : (s.boot image).regs = s.config.regInit := rfl
@[simp] theorem State.boot_ip (s : State) (image : List Word) : (s.boot image).ip = 0 := rfl
@[simp] theorem State.boot_stack (s : State) (image : List Word) : (s.boot image).stack = [] := rfl
@[simp] theorem State.boot_mem (s : State) (image : List Word) : (s.boot image).mem = Memory.ofWords (image ++ s.config.headroomInit.take (s.config.memSize - image.length)) := rfl
@[simp] theorem State.boot_memSize (s : State) (image : List Word) : (s.boot image).memSize = s.config.memSize := rfl
@[simp] theorem State.boot_programSize (s : State) (image : List Word) : (s.boot image).programSize = image.length := rfl
@[simp] theorem State.boot_runningFlag (s : State) (image : List Word) : (s.boot image).runningFlag = true := rfl
@[simp] theorem State.boot_runState (s : State) (image : List Word) : (s.boot image).runState = .running := rfl
@[simp] theorem State.boot_faultRecord (s : State) (image : List Word) : (s.boot image).faultRecord = FaultRecord.clear := rfl
@[simp] theorem State.boot_cancel (s : State) (image : List Word) : (s.boot image).cancel = false := rfl
@[simp] theorem State.boot_inPhase (s : State) (image : List Word) : (s.boot image).inPhase = none := rfl
@[simp] theorem State.boot_input (s : State) (image : List Word) : (s.boot image).input = s.input := rfl
@[simp] theorem State.boot_inputEnded (s : State) (image : List Word) : (s.boot image).inputEnded = s.inputEnded := rfl
@[simp] theorem State.boot_output (s : State) (image : List Word) : (s.boot image).output = s.output := rfl
@[simp] theorem State.boot_snapshots (s : State) (image : List Word) : (s.boot image).snapshots = s.snapshots := rfl

/-! ### placeAtIp -/

@[simp] theorem State.placeAtIp_config (s : State) (ws : List Word) : (s.placeAtIp ws).config = s.config := rfl
@[simp] theorem State.placeAtIp_regs (s : State) (ws : List Word) : (s.placeAtIp ws).regs = s.regs := rfl
@[simp] theorem State.placeAtIp_ip (s : State) (ws : List Word) : (s.placeAtIp ws).ip = s.ip := rfl
@[simp] theorem State.placeAtIp_stack (s : State) (ws : List Word) : (s.placeAtIp ws).stack = s.stack := rfl
@[simp] theorem State.placeAtIp_mem (s : State) (ws : List Word) : (s.placeAtIp ws).mem = Memory.writeAll s.ip.toNat ws s.mem := rfl
@[simp] theorem State.placeAtIp_memSize (s : State) (ws : List Word) : (s.placeAtIp ws).memSize = max s.memSize (s.ip.toNat + ws.length) := rfl
@[simp] theorem State.placeAtIp_programSize (s : State) (ws : List Word) : (s.placeAtIp ws).programSize = max s.programSize (s.ip.toNat + ws.length) := rfl
@[simp] theorem State.placeAtIp_runningFlag (s : State) (ws : List Word) : (s.placeAtIp ws).runningFlag = true := rfl
@[simp] theorem State.placeAtIp_runState (s : State) (ws : List Word) : (s.placeAtIp ws).runState = .running := rfl
@[simp] theorem State.placeAtIp_faultRecord (s : State) (ws : List Word) : (s.placeAtIp ws).faultRecord = s.faultRecord := rfl
@[simp] theorem State.placeAtIp_cancel (s : State) (ws : List Word) : (s.placeAtIp ws).cancel = s.cancel := rfl
@[simp] theorem State.placeAtIp_inPhase (s : State) (ws : List Word) : (s.placeAtIp ws).inPhase = none := rfl
@[simp] theorem State.placeAtIp_input (s : State) (ws : List Word) : (s.placeAtIp ws).input = s.input := rfl
@[simp] theorem State.placeAtIp_inputEnded (s : State) (ws : List Word) : (s.placeAtIp ws).inputEnded = s.inputEnded := rfl
@[simp] theorem State.placeAtIp_output (s : State) (ws : List Word) : (s.placeAtIp ws).output = s.output := rfl
@[simp] theorem State.placeAtIp_snapshots (s : State) (ws : List Word) : (s.placeAtIp ws).snapshots = s.snapshots := rfl

/-! ### applyOverride -/

@[simp] theorem State.applyOverride_config (s : State) (ov : Option Word) : (s.applyOverride ov).config = s.config := by
  cases ov <;> rfl
@[simp] theorem State.applyOverride_ip (s : State) (ov : Option Word) : (s.applyOverride ov).ip = s.ip := by
  cases ov <;> rfl
@[simp] theorem State.applyOverride_stack (s : State) (ov : Option Word) : (s.applyOverride ov).stack = s.stack := by
  cases ov <;> rfl
@[simp] theorem State.applyOverride_mem (s : State) (ov : Option Word) : (s.applyOverride ov).mem = s.mem := by
  cases ov <;> rfl
@[simp] theorem State.applyOverride_memSize (s : State) (ov : Option Word) : (s.applyOverride ov).memSize = s.memSize := by
  cases ov <;> rfl
@[simp] theorem State.applyOverride_programSize (s : State) (ov : Option Word) : (s.applyOverride ov).programSize = s.programSize := by
  cases ov <;> rfl
@[simp] theorem State.applyOverride_runningFlag (s : State) (ov : Option Word) : (s.applyOverride ov).runningFlag = s.runningFlag := by
  cases ov <;> rfl
@[simp] theorem State.applyOverride_runState (s : State) (ov : Option Word) : (s.applyOverride ov).runState = s.runState := by
  cases ov <;> rfl
@[simp] theorem State.applyOverride_faultRecord (s : State) (ov : Option Word) : (s.applyOverride ov).faultRecord = s.faultRecord := by
  cases ov <;> rfl
@[simp] theorem State.applyOverride_cancel (s : State) (ov : Option Word) : (s.applyOverride ov).cancel = s.cancel := by
  cases ov <;> rfl
@[simp] theorem State.applyOverride_inPhase (s : State) (ov : Option Word) : (s.applyOverride ov).inPhase = s.inPhase := by
  cases ov <;> rfl
@[simp] theorem State.applyOverride_input (s : State) (ov : Option Word) : (s.applyOverride ov).input = s.input := by
  cases ov <;> rfl
@[simp] theorem State.applyOverride_inputEnded (s : State) (ov : Option Word) : (s.applyOverride ov).inputEnded = s.inputEnded := by
  cases ov <;> rfl
@[simp] theorem State.applyOverride_output (s : State) (ov : Option Word) : (s.applyOverride ov).output = s.output := by
  cases ov <;> rfl
@[simp] theorem State.applyOverride_snapshots (s : State) (ov : Option Word) : (s.applyOverride ov).snapshots = s.snapshots := by
  cases ov <;> rfl
@[simp] theorem State.applyOverride_none (s : State) : s.applyOverride none = s := rfl
@[simp] theorem State.applyOverride_some (s : State) (v : Word) : s.applyOverride (some v) = s.writeReg .r7 v := rfl

/-! ### the polling point: it changes only what `suspend` changes -/

@[simp] theorem State.poll_config (s : State) : s.poll.config = s.config := by
  unfold State.poll; split <;> rfl
@[simp] theorem State.poll_regs (s : State) : s.poll.regs = s.regs := by
  unfold State.poll; split <;> rfl
@[simp] theorem State.poll_ip (s : State) : s.poll.ip = s.ip := by
  unfold State.poll; split <;> rfl
@[simp] theorem State.poll_stack (s : State) : s.poll.stack = s.stack := by
  unfold State.poll; split <;> rfl
@[simp] theorem State.poll_mem (s : State) : s.poll.mem = s.mem := by
  unfold State.poll; split <;> rfl
@[simp] theorem State.poll_memSize (s : State) : s.poll.memSize = s.memSize := by
  unfold State.poll; split <;> rfl
@[simp] theorem State.poll_programSize (s : State) : s.poll.programSize = s.programSize := by
  unfold State.poll; split <;> rfl
@[simp] theorem State.poll_faultRecord (s : State) : s.poll.faultRecord = s.faultRecord := by
  unfold State.poll; split <;> rfl
@[simp] theorem State.poll_inPhase (s : State) : s.poll.inPhase = s.inPhase := by
  unfold State.poll; split <;> rfl
@[simp] theorem State.poll_input (s : State) : s.poll.input = s.input := by
  unfold State.poll; split <;> rfl
@[simp] theorem State.poll_inputEnded (s : State) : s.poll.inputEnded = s.inputEnded := by
  unfold State.poll; split <;> rfl
@[simp] theorem State.poll_output (s : State) : s.poll.output = s.output := by
  unfold State.poll; split <;> rfl

/-- The polling point suspends, or leaves the state alone. -/
theorem State.poll_cases (s : State) :
    (s.runState = .running ∧ s.inPhase = none ∧ s.cancel = true ∧ s.poll = s.suspend) ∨
      (¬(s.runState = .running ∧ s.inPhase = none ∧ s.cancel = true) ∧ s.poll = s) := by
  unfold State.poll
  by_cases h : s.runState = .running ∧ s.inPhase = none ∧ s.cancel = true
  · exact .inl ⟨h.1, h.2.1, h.2.2, by simp [h]⟩
  · exact .inr ⟨h, by simp [h]⟩

/-- No polling point while the latch is clear. -/
theorem State.poll_of_cancel_false (s : State) (h : s.cancel = false) : s.poll = s := by
  simp [State.poll, h]

/-! ### registers -/

@[simp] theorem Regs.read_write_same (x : Regs) (r : Reg) (v : Word) : Regs.read (Regs.write x r v) r = v := by
  cases r <;> rfl

theorem Regs.read_write_other (x : Regs) (r q : Reg) (v : Word) (h : q ≠ r) :
    Regs.read (Regs.write x r v) q = Regs.read x q := by
  cases r <;> cases q <;> first | rfl | exact absurd rfl h

/-- A register file is its eight reads. -/
theorem Regs.ext_read (x y : Regs) (h : ∀ r, Regs.read x r = Regs.read y r) : x = y := by
  obtain ⟨x0, x1, x2, x3, x4, x5, x6, x7⟩ := x
  obtain ⟨y0, y1, y2, y3, y4, y5, y6, y7⟩ := y
  have h0 := h .r0
  have h1 := h .r1
  have h2 := h .r2
  have h3 := h .r3
  have h4 := h .r4
  have h5 := h .r5
  have h6 := h .r6
  have h7 := h .r7
  simp only [Regs.read] at h0 h1 h2 h3 h4 h5 h6 h7
  subst h0 h1 h2 h3 h4 h5 h6 h7
  rfl

@[simp] theorem Regs.ofList_toList (x : Regs) : Regs.ofList (Regs.toList x) = some x := rfl

@[simp] theorem Regs.toList_length (x : Regs) : (Regs.toList x).length = 8 := rfl

theorem Regs.ofList_eq_none (l : List Word) (h : l.length ≠ 8) : Regs.ofList l = none := by
  match l, h with
  | [], _ => rfl
  | [_], _ => rfl
  | [_, _], _ => rfl
  | [_, _, _], _ => rfl
  | [_, _, _, _], _ => rfl
  | [_, _, _, _, _], _ => rfl
  | [_, _, _, _, _, _], _ => rfl
  | [_, _, _, _, _, _, _], _ => rfl
  | [_, _, _, _, _, _, _, _], h => exact absurd rfl h
  | _ :: _ :: _ :: _ :: _ :: _ :: _ :: _ :: _ :: _, _ => rfl

@[simp] theorem State.readReg_writeReg_same (s : State) (r : Reg) (v : Word) : (s.writeReg r v).readReg r = v := by
  simp [State.readReg]

theorem State.readReg_writeReg_other (s : State) (r q : Reg) (v : Word) (h : q ≠ r) :
    (s.writeReg r v).readReg q = s.readReg q := by
  simp [State.readReg, Regs.read_write_other _ _ _ _ h]

end Machine
end Sys2Proof
end

