-- ==== Sys2Proof/Laws/Memory.lean ====
section
/-! SUPPORT. What memory reads after a write, and that every memory operation keeps the canonical form. -/

namespace Sys2Proof
namespace Machine

/-- Every listed address is above `a`: the head condition of the canonical form. -/
def Memory.above (a : Nat) (m : Memory) : Bool := m.all (fun c => decide (a < c.1))

@[simp] theorem Memory.wf_nil : Memory.wf [] = true := rfl

theorem Memory.wf_cons (a : Nat) (v : Word) (m : Memory) :
    Memory.wf ((a, v) :: m) = true ↔ v ≠ unlistedWord ∧ Memory.above a m = true ∧ Memory.wf m = true := by
  simp [Memory.wf, Memory.above, and_assoc]

@[simp] theorem Memory.above_nil (a : Nat) : Memory.above a [] = true := rfl

@[simp] theorem Memory.above_cons (a b : Nat) (v : Word) (m : Memory) :
    Memory.above a ((b, v) :: m) = true ↔ a < b ∧ Memory.above a m = true := by
  simp [Memory.above]

@[simp] theorem Memory.below_nil (n : Nat) : Memory.below n [] = true := rfl

@[simp] theorem Memory.below_cons (n b : Nat) (v : Word) (m : Memory) :
    Memory.below n ((b, v) :: m) = true ↔ b < n ∧ Memory.below n m = true := by
  simp [Memory.below]

theorem Memory.above_mono {a b : Nat} {m : Memory} (h : Memory.above b m = true) (hab : a ≤ b) :
    Memory.above a m = true := by
  simp only [Memory.above, List.all_eq_true, decide_eq_true_eq] at *
  exact fun c hc => lt_of_le_of_lt hab (h c hc)

theorem Memory.below_mono {n k : Nat} {m : Memory} (h : Memory.below n m = true) (hnk : n ≤ k) :
    Memory.below k m = true := by
  simp only [Memory.below, List.all_eq_true, decide_eq_true_eq] at *
  exact fun c hc => lt_of_lt_of_le (h c hc) hnk

/-- An address at or below the bound of all listed ones reads as unlisted. -/
theorem Memory.read_of_above {a b : Nat} {m : Memory} (h : Memory.above b m = true) (hab : a ≤ b) :
    Memory.read a m = unlistedWord := by
  induction m with
  | nil => rfl
  | cons c m ih =>
    obtain ⟨x, v⟩ := c
    rw [Memory.above_cons] at h
    have hx : x ≠ a := by omega
    simp [Memory.read, hx, ih h.2]

/-- An address past every listed one reads as unlisted (the headroom, R50). -/
theorem Memory.read_of_below {a n : Nat} {m : Memory} (h : Memory.below n m = true) (han : n ≤ a) :
    Memory.read a m = unlistedWord := by
  induction m with
  | nil => rfl
  | cons c m ih =>
    obtain ⟨x, v⟩ := c
    rw [Memory.below_cons] at h
    have hx : x ≠ a := by omega
    simp [Memory.read, hx, ih h.2]

/-- A write changes no other address (R47). -/
theorem Memory.read_write_other (a b : Nat) (v : Word) (m : Memory) (h : b ≠ a) :
    Memory.read b (Memory.write a v m) = Memory.read b m := by
  induction m with
  | nil =>
    simp only [Memory.write]
    split <;> simp [Memory.read, h.symm]
  | cons c m ih =>
    obtain ⟨x, w⟩ := c
    by_cases h1 : a < x
    · by_cases h0 : v = unlistedWord <;> simp [Memory.write, Memory.read, h1, h0, h.symm]
    · by_cases h2 : a = x
      · subst h2
        by_cases h0 : v = unlistedWord <;> simp [Memory.write, Memory.read, h0, h.symm]
      · simp [Memory.write, Memory.read, h1, h2, ih]

/-- A read after a write to the same address gives the Word written (R51). -/
theorem Memory.read_write_same (a : Nat) (v : Word) (m : Memory) (hm : Memory.wf m = true) :
    Memory.read a (Memory.write a v m) = v := by
  induction m with
  | nil =>
    by_cases h0 : v = unlistedWord <;> simp [Memory.write, Memory.read, h0]
  | cons c m ih =>
    obtain ⟨x, w⟩ := c
    rw [Memory.wf_cons] at hm
    by_cases h1 : a < x
    · have hx : x ≠ a := by omega
      have hz := Memory.read_of_above hm.2.1 (Nat.le_of_lt h1)
      by_cases h0 : v = unlistedWord <;> simp [Memory.write, Memory.read, h1, h0, hx, hz]
    · by_cases h2 : a = x
      · subst h2
        have hz := Memory.read_of_above hm.2.1 (Nat.le_refl a)
        by_cases h0 : v = unlistedWord <;> simp [Memory.write, Memory.read, h0, hz]
      · have hx : x ≠ a := fun h => h2 h.symm
        simp [Memory.write, Memory.read, h1, h2, hx, ih hm.2.2]

theorem Memory.above_write (b a : Nat) (v : Word) (m : Memory) (h : Memory.above b m = true) (hab : b < a) :
    Memory.above b (Memory.write a v m) = true := by
  induction m with
  | nil => by_cases h0 : v = unlistedWord <;> simp [Memory.write, h0, hab]
  | cons c m ih =>
    obtain ⟨x, w⟩ := c
    have hm := h
    rw [Memory.above_cons] at hm
    by_cases h1 : a < x
    · by_cases h0 : v = unlistedWord <;> simp [Memory.write, h1, h0, hab, hm.1, hm.2]
    · by_cases h2 : a = x
      · subst h2
        by_cases h0 : v = unlistedWord <;> simp [Memory.write, h0, hab, hm.2]
      · simp [Memory.write, h1, h2, hm.1, ih hm.2]

/-- A write keeps the canonical form. -/
theorem Memory.wf_write (a : Nat) (v : Word) (m : Memory) (h : Memory.wf m = true) :
    Memory.wf (Memory.write a v m) = true := by
  induction m with
  | nil => by_cases h0 : v = unlistedWord <;> simp [Memory.write, Memory.wf, h0]
  | cons c m ih =>
    obtain ⟨x, w⟩ := c
    have hm := h
    rw [Memory.wf_cons] at hm
    by_cases h1 : a < x
    · by_cases h0 : v = unlistedWord
      · simpa [Memory.write, h1, h0] using h
      · have hab : Memory.above a ((x, w) :: m) = true := by
          rw [Memory.above_cons]
          exact ⟨h1, Memory.above_mono hm.2.1 (Nat.le_of_lt h1)⟩
        simp only [Memory.write, h1, h0, if_true, if_false]
        rw [Memory.wf_cons]
        exact ⟨h0, hab, h⟩
    · by_cases h2 : a = x
      · subst h2
        by_cases h0 : v = unlistedWord
        · simpa [Memory.write, h0] using hm.2.2
        · simp only [Memory.write, h0, lt_irrefl, if_true, if_false]
          rw [Memory.wf_cons]
          exact ⟨h0, hm.2⟩
      · have hx : x < a := by omega
        simp only [Memory.write, h1, h2, if_false]
        rw [Memory.wf_cons]
        exact ⟨hm.1, Memory.above_write x a v m hm.2.1 hx, ih hm.2.2⟩

/-- A write inside the memory lists nothing outside it. -/
theorem Memory.below_write (n a : Nat) (v : Word) (m : Memory) (h : Memory.below n m = true) (ha : a < n) :
    Memory.below n (Memory.write a v m) = true := by
  induction m with
  | nil => by_cases h0 : v = unlistedWord <;> simp [Memory.write, h0, ha]
  | cons c m ih =>
    obtain ⟨x, w⟩ := c
    have hm := h
    rw [Memory.below_cons] at hm
    by_cases h1 : a < x
    · by_cases h0 : v = unlistedWord <;> simp [Memory.write, h1, h0, ha, hm.1, hm.2]
    · by_cases h2 : a = x
      · subst h2
        by_cases h0 : v = unlistedWord <;> simp [Memory.write, h0, ha, hm.2]
      · simp [Memory.write, h1, h2, hm.1, ih hm.2]

/-- Equal memories are equal data: canonical memories that read alike are the same list. -/
theorem Memory.ext_read (m k : Memory) (hm : Memory.wf m = true) (hk : Memory.wf k = true)
    (h : ∀ a, Memory.read a m = Memory.read a k) : m = k := by
  induction m generalizing k with
  | nil =>
    cases k with
    | nil => rfl
    | cons d k =>
      obtain ⟨y, w⟩ := d
      rw [Memory.wf_cons] at hk
      have := h y
      simp only [Memory.read, if_true] at this
      exact absurd this.symm hk.1
  | cons c m ih =>
    obtain ⟨x, v⟩ := c
    rw [Memory.wf_cons] at hm
    cases k with
    | nil =>
      have := h x
      simp only [Memory.read, if_true] at this
      exact absurd this hm.1
    | cons d k =>
      obtain ⟨y, w⟩ := d
      rw [Memory.wf_cons] at hk
      have hxy : x = y := by
        rcases Nat.lt_trichotomy x y with hlt | heq | hgt
        · have := h x
          have hyx : y ≠ x := by omega
          simp only [Memory.read, if_true, hyx, if_false, Memory.read_of_above hk.2.1 (Nat.le_of_lt hlt)] at this
          exact absurd this hm.1
        · exact heq
        · have := h y
          have hyx : x ≠ y := by omega
          simp only [Memory.read, if_true, hyx, if_false, Memory.read_of_above hm.2.1 (Nat.le_of_lt hgt)] at this
          exact absurd this.symm hk.1
      subst hxy
      have hvw : v = w := by simpa [Memory.read] using h x
      subst hvw
      have hrest : m = k := by
        refine ih k hm.2.2 hk.2.2 fun a => ?_
        by_cases hax : x = a
        · subst hax
          rw [Memory.read_of_above hm.2.1 (Nat.le_refl x), Memory.read_of_above hk.2.1 (Nat.le_refl x)]
        · simpa [Memory.read, hax] using h a
      rw [hrest]

theorem Memory.above_ofWordsFrom (a b : Nat) (ws : List Word) (h : b < a) :
    Memory.above b (Memory.ofWordsFrom a ws) = true := by
  induction ws generalizing a with
  | nil => rfl
  | cons w ws ih =>
    simp only [Memory.ofWordsFrom]
    split
    · exact ih (a + 1) (by omega)
    · rw [Memory.above_cons]
      exact ⟨h, ih (a + 1) (by omega)⟩

/-- A memory made of words is canonical. -/
theorem Memory.wf_ofWordsFrom (a : Nat) (ws : List Word) : Memory.wf (Memory.ofWordsFrom a ws) = true := by
  induction ws generalizing a with
  | nil => rfl
  | cons w ws ih =>
    simp only [Memory.ofWordsFrom]
    split
    · exact ih (a + 1)
    · rw [Memory.wf_cons]
      exact ⟨‹_›, Memory.above_ofWordsFrom _ _ _ (Nat.lt_succ_self a), ih (a + 1)⟩

theorem Memory.below_ofWordsFrom (n a : Nat) (ws : List Word) (h : a + ws.length ≤ n) :
    Memory.below n (Memory.ofWordsFrom a ws) = true := by
  induction ws generalizing a with
  | nil => rfl
  | cons w ws ih =>
    simp only [List.length_cons] at h
    simp only [Memory.ofWordsFrom]
    split
    · exact ih (a + 1) (by omega)
    · rw [Memory.below_cons]
      exact ⟨by omega, ih (a + 1) (by omega)⟩

/-- Word i of the sequence is at address `a + i` (R49); past its end the memory reads as unlisted. -/
theorem Memory.read_ofWordsFrom (a i : Nat) (ws : List Word) :
    Memory.read (a + i) (Memory.ofWordsFrom a ws) = ws.getD i unlistedWord := by
  induction ws generalizing a i with
  | nil => simp [Memory.ofWordsFrom, Memory.read]
  | cons w ws ih =>
    cases i with
    | zero =>
      by_cases h0 : w = unlistedWord
      · subst h0
        simpa [Memory.ofWordsFrom] using
          Memory.read_of_above (Memory.above_ofWordsFrom (a + 1) a ws (Nat.lt_succ_self a)) (Nat.le_refl a)
      · simp [Memory.ofWordsFrom, Memory.read, h0]
    | succ j =>
      have hj := ih (a + 1) j
      have haj : a + (j + 1) = a + 1 + j := by omega
      have hne : a ≠ a + 1 + j := by omega
      rw [haj]
      by_cases h0 : w = unlistedWord
      · simpa [Memory.ofWordsFrom, h0] using hj
      · simpa [Memory.ofWordsFrom, Memory.read, h0, hne] using hj

theorem Memory.wf_ofWords (ws : List Word) : Memory.wf (Memory.ofWords ws) = true := Memory.wf_ofWordsFrom 0 ws

theorem Memory.below_ofWords (n : Nat) (ws : List Word) (h : ws.length ≤ n) :
    Memory.below n (Memory.ofWords ws) = true := Memory.below_ofWordsFrom n 0 ws (by omega)

theorem Memory.read_ofWords (i : Nat) (ws : List Word) :
    Memory.read i (Memory.ofWords ws) = ws.getD i unlistedWord := by
  simpa [Memory.ofWords] using Memory.read_ofWordsFrom 0 i ws

theorem Memory.wf_writeAll (a : Nat) (ws : List Word) (m : Memory) (h : Memory.wf m = true) :
    Memory.wf (Memory.writeAll a ws m) = true := by
  induction ws generalizing a m with
  | nil => exact h
  | cons w ws ih => exact ih (a + 1) _ (Memory.wf_write a w m h)

/-- The memory's Words, one per address. -/
@[simp] theorem Memory.words_length (n : Nat) (m : Memory) : (Memory.words n m).length = n := by simp [Memory.words]

/-- The reset state's memory is canonical. -/
theorem State.reset_mem_wf : Memory.wf State.reset.mem = true := rfl

end Machine
end Sys2Proof
end

