-- ==== Sys2Proof/Laws/Exec.lean ====
section
/-! SUPPORT. One lemma per shared operation of the meanings that says everything it can do. -/

namespace Sys2Proof
namespace Machine

/-! ### operands -/

@[simp] theorem operandVal_lit (s : State) (n : BitVec 15) : operandVal s (.lit n) = .ok (n.setWidth 16) := rfl
@[simp] theorem operandVal_reg (s : State) (r : Reg) : operandVal s (.reg r) = .ok (s.readReg r) := rfl
@[simp] theorem operandVal_invalid (s : State) (w : Word) : operandVal s (.invalid w) = .error .invalidOperand := rfl
@[simp] theorem operandDst_reg (r : Reg) : operandDst (.reg r) = .ok r := rfl
@[simp] theorem operandDst_lit (n : BitVec 15) : operandDst (.lit n) = .error .invalidOperand := rfl
@[simp] theorem operandDst_invalid (w : Word) : operandDst (.invalid w) = .error .invalidOperand := rfl

/-- A value operand resolves, or raises InvalidOperand (R63). -/
theorem operandVal_cases (s : State) (o : Operand) :
    (o.isValue = true ∧ ∃ v, operandVal s o = .ok v) ∨
      (o.isValue = false ∧ operandVal s o = .error .invalidOperand) := by
  cases o with
  | lit n => exact .inl ⟨rfl, _, rfl⟩
  | reg r => exact .inl ⟨rfl, _, rfl⟩
  | invalid w => exact .inr ⟨rfl, rfl⟩

/-- A destination operand names a register, or raises InvalidOperand (R64). -/
theorem operandDst_cases (o : Operand) :
    (∃ d, o = .reg d ∧ operandDst o = .ok d) ∨ (o.isReg = false ∧ operandDst o = .error .invalidOperand) := by
  cases o with
  | lit n => exact .inr ⟨rfl, rfl⟩
  | reg r => exact .inl ⟨r, rfl, rfl⟩
  | invalid w => exact .inr ⟨rfl, rfl⟩

/-! ### `Except` binds -/

@[simp] theorem bind_ok {α β : Type} (x : α) (f : α → Except Cause β) : (Except.ok x >>= f) = f x := rfl
@[simp] theorem bind_error {α β : Type} (c : Cause) (f : α → Except Cause β) :
    ((Except.error c : Except Cause α) >>= f) = .error c := rfl
@[simp] theorem pure_ok {α : Type} (x : α) : (pure x : Except Cause α) = .ok x := rfl

/-! ### completing, stack and memory -/

@[simp] theorem complete_ok (i : Instr) (s t : State) : complete i s (.ok t) = .next t := rfl
@[simp] theorem complete_error (i : Instr) (s : State) (c : Cause) :
    complete i s (.error c) = .next (s.raise c (some i.opcode)) := rfl

/-- An instruction's `EXEC` gives its result, or the fault is taken in the state the step began with (R205). -/
theorem complete_cases {i : Instr} {s t : State} {r : Except Cause State} (h : complete i s r = .next t) :
    r = .ok t ∨ ∃ c, r = .error c ∧ t = s.raise c (some i.opcode) := by
  cases r with
  | ok u => simp only [complete_ok, Host.Outcome.next.injEq] at h; exact .inl (by rw [h])
  | error c => simp only [complete_error, Host.Outcome.next.injEq] at h; exact .inr ⟨c, rfl, h.symm⟩

theorem complete_next (i : Instr) (s : State) (r : Except Cause State) : ∃ t, complete i s r = .next t := by
  cases r <;> exact ⟨_, rfl⟩

/-- `push(v)` (R24): onto a stack below `STACK_CAP`, or StackOverflow. -/
theorem State.push_cases (s : State) (v : Word) :
    (s.config.stackAllows (s.stack.length + 1) = true ∧ s.push v = .ok { s with stack := v :: s.stack }) ∨
      (s.config.stackAllows (s.stack.length + 1) = false ∧ s.push v = .error .stackOverflow) := by
  unfold State.push
  by_cases h : s.config.stackAllows (s.stack.length + 1) = true
  · exact .inl ⟨h, by simp [h]⟩
  · exact .inr ⟨by simpa using h, by simp [h]⟩

/-- `pop()` (R25): the top entry, or StackUnderflow. -/
theorem State.pop_cases (s : State) :
    (s.stack = [] ∧ s.pop = .error .stackUnderflow) ∨
      ∃ v rest, s.stack = v :: rest ∧ s.pop = .ok (v, { s with stack := rest }) := by
  unfold State.pop
  cases h : s.stack with
  | nil => exact .inl ⟨rfl, rfl⟩
  | cons v rest => exact .inr ⟨v, rest, rfl, rfl⟩

/-- `MemRead` (R42). -/
theorem State.memRead_cases (s : State) (acc : Access) (a : Nat) :
    (a < s.memSize ∧ s.memRead acc a = .ok (Memory.read a s.mem)) ∨
      (s.memSize ≤ a ∧ s.memRead acc a = .error (.outOfBounds acc (BitVec.ofNat 16 a))) := by
  unfold State.memRead
  by_cases h : a < s.memSize
  · exact .inl ⟨h, by simp [h]⟩
  · exact .inr ⟨by omega, by simp [h]⟩

/-- `MemWrite` (R43). -/
theorem State.memWrite_cases (s : State) (a : Nat) (v : Word) :
    (a < s.memSize ∧ s.memWrite a v = .ok { s with mem := Memory.write a v s.mem }) ∨
      (s.memSize ≤ a ∧ s.memWrite a v = .error (.outOfBounds .wmemWrite (BitVec.ofNat 16 a))) := by
  unfold State.memWrite
  by_cases h : a < s.memSize
  · exact .inl ⟨h, by simp [h]⟩
  · exact .inr ⟨by omega, by simp [h]⟩

/-- A dropped stack entry keeps the depth within the capacity. -/
theorem Config.stackAllows_mono (c : Config) (m n : Nat) (h : c.stackAllows n = true) (hmn : m ≤ n) :
    c.stackAllows m = true := by
  unfold Config.stackAllows at *
  cases hc : c.stackCap with
  | none => rfl
  | some cap =>
    simp only [hc, decide_eq_true_eq] at *
    omega

/-! ### what an instruction can do -/

/-- What `exec` answers, one alternative per kind of effect, guards included: the inversion every invariant is derived from. -/
inductive Effect (i : Instr) (s : State) : State → Prop
  /-- HALT (R100) -/
  | halt (hi : i = .halt) : Effect i s { s with runningFlag := false, runState := .halted .halt }
  /-- NOOP, or a branch, taken or not (R101, R141 to R143) -/
  | ip (t : Word) (hi : i = .noop ∨ (∃ a, i = .jmp a) ∨ (∃ a b, i = .jt a b) ∨ ∃ a b, i = .jf a b) :
      Effect i s (s.jump t)
  /-- a result in the destination register (R110, R121 to R128, R161) -/
  | register (d : Reg) (v : Word)
      (hi : (∃ b, i = .set (.reg d) b) ∨ (∃ b c, i = .eq (.reg d) b c) ∨ (∃ b c, i = .gt (.reg d) b c) ∨
        (∃ b c, i = .add (.reg d) b c) ∨ (∃ b c, i = .mult (.reg d) b c) ∨ (∃ b c, i = .mod (.reg d) b c) ∨
        (∃ b c, i = .and (.reg d) b c) ∨ (∃ b c, i = .or (.reg d) b c) ∨ (∃ b, i = .not (.reg d) b) ∨
        ∃ b, i = .rmem (.reg d) b) :
      Effect i s ((s.writeReg d v).advance i)
  /-- PUSH or CALL (R111, R144) -/
  | push (v t : Word) (hroom : s.config.stackAllows (s.stack.length + 1) = true)
      (hi : (∃ a, i = .push a) ∨ ∃ a, i = .call a) : Effect i s { s with stack := v :: s.stack, ip := t }
  /-- POP (R112) -/
  | pop (d : Reg) (v : Word) (rest : List Word) (hs : s.stack = v :: rest) (hi : i = .pop (.reg d)) :
      Effect i s ((State.writeReg { s with stack := rest } d v).advance i)
  /-- RET (R145) -/
  | ret (v : Word) (rest : List Word) (hs : s.stack = v :: rest) (hi : i = .ret) :
      Effect i s { s with stack := rest, ip := v }
  /-- WMEM (R162) -/
  | store (a : Operand) (b : Operand) (addr v : Word) (ha : operandVal s a = .ok addr) (hb : operandVal s b = .ok v)
      (hin : addr.toNat < s.memSize) (hi : i = .wmem a b) :
      Effect i s (State.advance { s with mem := Memory.write addr.toNat v s.mem } i)
  /-- OUT (R172) -/
  | out (b : Byte) (hi : ∃ a, i = .out a) : Effect i s (State.advance { s with output := s.output ++ [b] } i)
  /-- IN, a byte delivered (R173) -/
  | delivered (d : Reg) (c : Byte) (ov : Option Word) (rest : List Byte) (hi : i = .inp (.reg d))
      (hp : inProtocol s.inputEnded (s.inPhase.getD .first) s.input = .delivered c ov rest) :
      Effect i s { ((s.applyOverride ov).writeReg d (c.setWidth 16)).advance i with input := rest, inPhase := none }
  /-- IN, no answer yet (R170) -/
  | waits (d : Reg) (p : InPhase) (hi : i = .inp (.reg d))
      (hp : inProtocol s.inputEnded (s.inPhase.getD .first) s.input = .waits p) :
      Effect i s { s with input := [], inPhase := some p }
  /-- IN, a fault after bytes were read (R211, R212) -/
  | inputFault (d : Reg) (rest : List Byte) (c : Cause) (hi : i = .inp (.reg d))
      (hp : (inProtocol s.inputEnded (s.inPhase.getD .first) s.input = .exhausted ∧ rest = [] ∧ c = .inputExhausted) ∨
        (inProtocol s.inputEnded (s.inPhase.getD .first) s.input = .malformed rest ∧ c = .invalidInput)) :
      Effect i s (State.raise { s with input := rest } c (some i.opcode))
  /-- any other fault of an instruction (R201 to R209) -/
  | fault (c : Cause) (hc : c ≠ .inputExhausted ∧ c ≠ .invalidInput ∧ c ≠ .invalidOpcode)
      (hacc : ∀ acc a, c = .outOfBounds acc a → (acc = .rmemRead ∧ ∃ a b, i = .rmem a b) ∨ (acc = .wmemWrite ∧ ∃ a b, i = .wmem a b)) :
      Effect i s (s.raise c (some i.opcode))

/-- The fault every opcode with an operand may raise (R84). -/
theorem Effect.invalidOperand (i : Instr) (s : State) : Effect i s (s.raise .invalidOperand (some i.opcode)) :=
  .fault _ (by decide) (by intro _ _ h; cases h)

/-- Every F3 ALU instruction writes its destination register, or faults. -/
theorem aluBinary_cases {i : Instr} {f : Word → Word → Except Cause Word} {a b c : Operand} {s t : State}
    (h : aluBinary i f a b c s = .next t) :
    (∃ d x y z, a = .reg d ∧ operandVal s b = .ok x ∧ operandVal s c = .ok y ∧ f x y = .ok z ∧
        t = (s.writeReg d z).advance i) ∨
      t = s.raise .invalidOperand (some i.opcode) ∨
      ∃ x y e, operandVal s b = .ok x ∧ operandVal s c = .ok y ∧ f x y = .error e ∧ t = s.raise e (some i.opcode) := by
  unfold aluBinary at h
  obtain ⟨d, rfl, hd⟩ | ⟨-, hd⟩ := operandDst_cases a
  · obtain ⟨-, x, hx⟩ | ⟨-, hx⟩ := operandVal_cases s b
    · obtain ⟨-, y, hy⟩ | ⟨-, hy⟩ := operandVal_cases s c
      · cases hf : f x y with
        | ok z =>
          simp only [hd, hx, hy, hf, bind_ok, pure_ok, complete_ok, Host.Outcome.next.injEq] at h
          exact .inl ⟨d, x, y, z, rfl, hx, hy, hf, h.symm⟩
        | error e =>
          simp only [hd, hx, hy, hf, bind_ok, bind_error, complete_error, Host.Outcome.next.injEq] at h
          exact .inr (.inr ⟨x, y, e, hx, hy, hf, h.symm⟩)
      · simp only [hd, hx, hy, bind_ok, bind_error, complete_error, Host.Outcome.next.injEq] at h
        exact .inr (.inl h.symm)
    · simp only [hd, hx, bind_ok, bind_error, complete_error, Host.Outcome.next.injEq] at h
      exact .inr (.inl h.symm)
  · simp only [hd, bind_error, complete_error, Host.Outcome.next.injEq] at h
    exact .inr (.inl h.symm)

/-- A raised DivideByZero is the only fault of MOD's computation (R125). -/
theorem aluMod_error {x y : Word} {e : Cause} (h : aluMod x y = .error e) : e = .divideByZero := by
  unfold aluMod at h
  split at h <;> simp_all

end Machine
end Sys2Proof
end

