-- ==== Sys2Proof/Laws/Step.lean ====
section
/-! SUPPORT. What `exec` and `step` can do, once: `exec_effect` and `step_cases` are the inversion lemmas every whole-machine claim
is derived from. -/

namespace Sys2Proof
namespace Machine

open Host (Outcome)

theorem aluBinary_effect {i : Instr} {f : Word → Word → Except Cause Word} {a b c : Operand} {s t : State}
    (herr : ∀ x y e, f x y = .error e → e = .divideByZero)
    (hi : ∀ d, a = .reg d →
      (∃ b, i = .set (.reg d) b) ∨ (∃ b c, i = .eq (.reg d) b c) ∨ (∃ b c, i = .gt (.reg d) b c) ∨
        (∃ b c, i = .add (.reg d) b c) ∨ (∃ b c, i = .mult (.reg d) b c) ∨ (∃ b c, i = .mod (.reg d) b c) ∨
        (∃ b c, i = .and (.reg d) b c) ∨ (∃ b c, i = .or (.reg d) b c) ∨ (∃ b, i = .not (.reg d) b) ∨
        ∃ b, i = .rmem (.reg d) b)
    (h : aluBinary i f a b c s = .next t) : Effect i s t := by
  obtain ⟨d, x, y, z, ha, -, -, -, rfl⟩ | rfl | ⟨x, y, e, -, -, he, rfl⟩ := aluBinary_cases h
  · exact .register d z (hi d ha)
  · exact .invalidOperand i s
  · obtain rfl := herr x y e he
    exact .fault _ (by decide) (by intro _ _ h; cases h)

/-- Everything an instruction can do. -/
theorem exec_effect {i : Instr} {s t : State} (h : exec i s = .next t) : Effect i s t := by
  cases i with
  | halt =>
    simp only [exec, execHalt, Outcome.next.injEq] at h
    subst h
    exact .halt rfl
  | noop =>
    simp only [exec, execNoop, Outcome.next.injEq] at h
    subst h
    exact .ip _ (.inl rfl)
  | set a b =>
    simp only [exec, execSet] at h
    obtain ⟨d, rfl, hd⟩ | ⟨-, hd⟩ := operandDst_cases a
    · obtain ⟨-, x, hx⟩ | ⟨-, hx⟩ := operandVal_cases s b
      · simp only [hx, hd, bind_ok, pure_ok, complete_ok, Outcome.next.injEq] at h
        subst h
        exact .register d x (.inl ⟨b, rfl⟩)
      · simp only [hx, hd, bind_ok, bind_error, complete_error, Outcome.next.injEq] at h
        subst h
        exact .invalidOperand _ s
    · simp only [hd, bind_error, complete_error, Outcome.next.injEq] at h
      subst h
      exact .invalidOperand _ s
  | push a =>
    simp only [exec, execPush] at h
    obtain ⟨-, x, hx⟩ | ⟨-, hx⟩ := operandVal_cases s a
    · obtain ⟨hroom, hp⟩ | ⟨-, hp⟩ := State.push_cases s x
      · simp only [hx, hp, bind_ok, pure_ok, complete_ok, Outcome.next.injEq] at h
        subst h
        exact .push x _ hroom (.inl ⟨a, rfl⟩)
      · simp only [hx, hp, bind_ok, bind_error, complete_error, Outcome.next.injEq] at h
        subst h
        exact .fault _ (by decide) (by intro _ _ h; cases h)
    · simp only [hx, bind_error, complete_error, Outcome.next.injEq] at h
      subst h
      exact .invalidOperand _ s
  | pop a =>
    simp only [exec, execPop] at h
    obtain ⟨d, rfl, hd⟩ | ⟨-, hd⟩ := operandDst_cases a
    · obtain ⟨-, hp⟩ | ⟨v, rest, hs, hp⟩ := State.pop_cases s
      · simp only [hd, hp, bind_ok, bind_error, complete_error, Outcome.next.injEq] at h
        subst h
        exact .fault _ (by decide) (by intro _ _ h; cases h)
      · simp only [hd, hp, bind_ok, pure_ok, complete_ok, Outcome.next.injEq] at h
        subst h
        exact .pop d v rest hs rfl
    · simp only [hd, bind_error, complete_error, Outcome.next.injEq] at h
      subst h
      exact .invalidOperand _ s
  | eq a b c =>
    exact aluBinary_effect (by intro _ _ _ h; cases h) (by rintro d rfl; exact .inr (.inl ⟨b, c, rfl⟩)) h
  | gt a b c =>
    exact aluBinary_effect (by intro _ _ _ h; cases h) (by rintro d rfl; exact .inr (.inr (.inl ⟨b, c, rfl⟩))) h
  | add a b c =>
    exact aluBinary_effect (by intro _ _ _ h; cases h)
      (by rintro d rfl; exact .inr (.inr (.inr (.inl ⟨b, c, rfl⟩)))) h
  | mult a b c =>
    exact aluBinary_effect (by intro _ _ _ h; cases h)
      (by rintro d rfl; exact .inr (.inr (.inr (.inr (.inl ⟨b, c, rfl⟩))))) h
  | mod a b c =>
    exact aluBinary_effect (fun _ _ _ => aluMod_error)
      (by rintro d rfl; exact .inr (.inr (.inr (.inr (.inr (.inl ⟨b, c, rfl⟩)))))) h
  | and a b c =>
    exact aluBinary_effect (by intro _ _ _ h; cases h)
      (by rintro d rfl; exact .inr (.inr (.inr (.inr (.inr (.inr (.inl ⟨b, c, rfl⟩))))))) h
  | or a b c =>
    exact aluBinary_effect (by intro _ _ _ h; cases h)
      (by rintro d rfl; exact .inr (.inr (.inr (.inr (.inr (.inr (.inr (.inl ⟨b, c, rfl⟩)))))))) h
  | not a b =>
    simp only [exec, execNot] at h
    obtain ⟨d, rfl, hd⟩ | ⟨-, hd⟩ := operandDst_cases a
    · obtain ⟨-, x, hx⟩ | ⟨-, hx⟩ := operandVal_cases s b
      · simp only [hx, hd, bind_ok, pure_ok, complete_ok, Outcome.next.injEq] at h
        subst h
        exact .register d _ (.inr (.inr (.inr (.inr (.inr (.inr (.inr (.inr (.inl ⟨b, rfl⟩)))))))))
      · simp only [hx, hd, bind_ok, bind_error, complete_error, Outcome.next.injEq] at h
        subst h
        exact .invalidOperand _ s
    · simp only [hd, bind_error, complete_error, Outcome.next.injEq] at h
      subst h
      exact .invalidOperand _ s
  | rmem a b =>
    simp only [exec, execRmem] at h
    obtain ⟨d, rfl, hd⟩ | ⟨-, hd⟩ := operandDst_cases a
    · obtain ⟨-, x, hx⟩ | ⟨-, hx⟩ := operandVal_cases s b
      · obtain ⟨-, hm⟩ | ⟨-, hm⟩ := State.memRead_cases s .rmemRead x.toNat
        · simp only [hx, hd, hm, bind_ok, pure_ok, complete_ok, Outcome.next.injEq] at h
          subst h
          exact .register d _ (.inr (.inr (.inr (.inr (.inr (.inr (.inr (.inr (.inr ⟨b, rfl⟩)))))))))
        · simp only [hx, hd, hm, bind_ok, bind_error, complete_error, Outcome.next.injEq] at h
          subst h
          refine .fault _ ⟨by simp, by simp, by simp⟩ ?_
          rintro acc a' h
          simp only [Cause.outOfBounds.injEq] at h
          exact .inl ⟨h.1.symm, _, _, rfl⟩
      · simp only [hx, hd, bind_ok, bind_error, complete_error, Outcome.next.injEq] at h
        subst h
        exact .invalidOperand _ s
    · simp only [hd, bind_error, complete_error, Outcome.next.injEq] at h
      subst h
      exact .invalidOperand _ s
  | wmem a b =>
    simp only [exec, execWmem] at h
    obtain ⟨-, x, hx⟩ | ⟨-, hx⟩ := operandVal_cases s a
    · obtain ⟨-, v, hv⟩ | ⟨-, hv⟩ := operandVal_cases s b
      · obtain ⟨hin, hm⟩ | ⟨-, hm⟩ := State.memWrite_cases s x.toNat v
        · simp only [hx, hv, hm, bind_ok, pure_ok, complete_ok, Outcome.next.injEq] at h
          subst h
          exact .store a b x v hx hv hin rfl
        · simp only [hx, hv, hm, bind_ok, bind_error, complete_error, Outcome.next.injEq] at h
          subst h
          refine .fault _ ⟨by simp, by simp, by simp⟩ ?_
          rintro acc a' h
          simp only [Cause.outOfBounds.injEq] at h
          exact .inr ⟨h.1.symm, _, _, rfl⟩
      · simp only [hx, hv, bind_ok, bind_error, complete_error, Outcome.next.injEq] at h
        subst h
        exact .invalidOperand _ s
    · simp only [hx, bind_error, complete_error, Outcome.next.injEq] at h
      subst h
      exact .invalidOperand _ s
  | jmp a =>
    simp only [exec, execJmp] at h
    obtain ⟨-, x, hx⟩ | ⟨-, hx⟩ := operandVal_cases s a
    · simp only [hx, bind_ok, pure_ok, complete_ok, Outcome.next.injEq] at h
      subst h
      exact .ip x (.inr (.inl ⟨a, rfl⟩))
    · simp only [hx, bind_error, complete_error, Outcome.next.injEq] at h
      subst h
      exact .invalidOperand _ s
  | jt a b =>
    simp only [exec, execJt] at h
    obtain ⟨-, x, hx⟩ | ⟨-, hx⟩ := operandVal_cases s a
    · obtain ⟨-, v, hv⟩ | ⟨-, hv⟩ := operandVal_cases s b
      · simp only [hx, hv, bind_ok, pure_ok, complete_ok, Outcome.next.injEq] at h
        subst h
        split
        · exact .ip _ (.inr (.inr (.inl ⟨a, b, rfl⟩)))
        · exact .ip _ (.inr (.inr (.inl ⟨a, b, rfl⟩)))
      · simp only [hx, hv, bind_ok, bind_error, complete_error, Outcome.next.injEq] at h
        subst h
        exact .invalidOperand _ s
    · simp only [hx, bind_error, complete_error, Outcome.next.injEq] at h
      subst h
      exact .invalidOperand _ s
  | jf a b =>
    simp only [exec, execJf] at h
    obtain ⟨-, x, hx⟩ | ⟨-, hx⟩ := operandVal_cases s a
    · obtain ⟨-, v, hv⟩ | ⟨-, hv⟩ := operandVal_cases s b
      · simp only [hx, hv, bind_ok, pure_ok, complete_ok, Outcome.next.injEq] at h
        subst h
        split
        · exact .ip _ (.inr (.inr (.inr ⟨a, b, rfl⟩)))
        · exact .ip _ (.inr (.inr (.inr ⟨a, b, rfl⟩)))
      · simp only [hx, hv, bind_ok, bind_error, complete_error, Outcome.next.injEq] at h
        subst h
        exact .invalidOperand _ s
    · simp only [hx, bind_error, complete_error, Outcome.next.injEq] at h
      subst h
      exact .invalidOperand _ s
  | call a =>
    simp only [exec, execCall] at h
    obtain ⟨-, x, hx⟩ | ⟨-, hx⟩ := operandVal_cases s a
    · obtain ⟨hroom, hp⟩ | ⟨-, hp⟩ := State.push_cases s (s.nextIp (.call a))
      · simp only [hx, hp, bind_ok, pure_ok, complete_ok, Outcome.next.injEq] at h
        subst h
        exact .push _ x hroom (.inr ⟨a, rfl⟩)
      · simp only [hx, hp, bind_ok, bind_error, complete_error, Outcome.next.injEq] at h
        subst h
        exact .fault _ (by decide) (by intro _ _ h; cases h)
    · simp only [hx, bind_error, complete_error, Outcome.next.injEq] at h
      subst h
      exact .invalidOperand _ s
  | ret =>
    simp only [exec, execRet] at h
    obtain ⟨-, hp⟩ | ⟨v, rest, hs, hp⟩ := State.pop_cases s
    · simp only [hp, bind_error, complete_error, Outcome.next.injEq] at h
      subst h
      exact .fault _ (by decide) (by intro _ _ h; cases h)
    · simp only [hp, bind_ok, pure_ok, complete_ok, Outcome.next.injEq] at h
      subst h
      exact .ret v rest hs rfl
  | out a =>
    simp only [exec, execOut] at h
    obtain ⟨-, x, hx⟩ | ⟨-, hx⟩ := operandVal_cases s a
    · simp only [hx, bind_ok, pure_ok, complete_ok, Outcome.next.injEq] at h
      subst h
      exact .out _ ⟨a, rfl⟩
    · simp only [hx, bind_error, complete_error, Outcome.next.injEq] at h
      subst h
      exact .invalidOperand _ s
  | inp a =>
    simp only [exec, execInp] at h
    obtain ⟨d, rfl, hd⟩ | ⟨-, hd⟩ := operandDst_cases a
    · simp only [hd] at h
      cases hp : inProtocol s.inputEnded (s.inPhase.getD .first) s.input with
      | delivered c ov rest =>
        simp only [hp, Outcome.next.injEq] at h
        subst h
        exact .delivered d c ov rest rfl hp
      | exhausted =>
        simp only [hp, Outcome.next.injEq] at h
        subst h
        exact .inputFault d [] _ rfl (.inl ⟨hp, rfl, rfl⟩)
      | malformed rest =>
        simp only [hp, Outcome.next.injEq] at h
        subst h
        exact .inputFault d rest _ rfl (.inr ⟨hp, rfl⟩)
      | waits p =>
        simp only [hp, Outcome.next.injEq] at h
        subst h
        exact .waits d p rfl hp
    · simp only [hd, Outcome.next.injEq] at h
      subst h
      exact .invalidOperand _ s

/-! ### fetch -/

/-- What a fetch answers: the opcode's row and every operand word in bounds, or the first fault of R88. -/
theorem State.fetchOperand_cases (s : State) (k : Nat) :
    (s.ip.toNat + k < s.memSize ∧ s.fetchOperand k = .ok (.decode (Memory.read (s.ip.toNat + k) s.mem))) ∨
      (s.memSize ≤ s.ip.toNat + k ∧
        s.fetchOperand k = .error (.outOfBounds .operandFetch (BitVec.ofNat 16 (s.ip.toNat + k)))) := by
  obtain ⟨h, hm⟩ | ⟨h, hm⟩ := State.memRead_cases s .operandFetch (s.ip.toNat + k)
  · exact .inl ⟨h, by simp [State.fetchOperand, hm]⟩
  · exact .inr ⟨h, by simp [State.fetchOperand, hm]⟩

/-- An operand fetch fails only out of bounds (R83). -/
theorem State.fetchOperands_error {s : State} {f : Format} {c : Cause} (h : s.fetchOperands f = .error c) :
    ∃ k, 1 ≤ k ∧ k ≤ f.operandCount ∧ s.memSize ≤ s.ip.toNat + k ∧
      c = .outOfBounds .operandFetch (BitVec.ofNat 16 (s.ip.toNat + k)) := by
  obtain ⟨-, h1⟩ | ⟨b1, h1⟩ := State.fetchOperand_cases s 1
  · obtain ⟨-, h2⟩ | ⟨b2, h2⟩ := State.fetchOperand_cases s 2
    · obtain ⟨-, h3⟩ | ⟨b3, h3⟩ := State.fetchOperand_cases s 3
      · cases f <;> simp [State.fetchOperands, h1, h2, h3] at h
      · cases f <;> simp [State.fetchOperands, h1, h2, h3] at h
        exact ⟨3, by decide, Nat.le_refl 3, b3, h.symm⟩
    · cases f <;> simp [State.fetchOperands, h1, h2] at h
      · exact ⟨2, by decide, Nat.le_refl 2, b2, h.symm⟩
      · exact ⟨2, by decide, by simp [Format.operandCount], b2, h.symm⟩
  · cases f <;> simp [State.fetchOperands, h1] at h
    · exact ⟨1, by decide, Nat.le_refl 1, b1, h.symm⟩
    · exact ⟨1, by decide, by simp [Format.operandCount], b1, h.symm⟩
    · exact ⟨1, by decide, by simp [Format.operandCount], b1, h.symm⟩

/-- The faults of a fetch (R82, R83): the IP outside the program, an illegal opcode, an operand word outside memory. -/
theorem State.fetch_error {s : State} {c : Cause} {op : Option Word} (h : s.fetch = .error (c, op)) :
    ((∃ a, c = .outOfBounds .opcodeFetch a) ∧ op = none) ∨
      (∃ w, c = .invalidOpcode ∧ op = some w) ∨ ∃ a w, c = .outOfBounds .operandFetch a ∧ op = some w := by
  unfold State.fetch at h
  split at h
  · simp only [Except.error.injEq, Prod.mk.injEq] at h
    exact .inl ⟨⟨s.ip, h.1.symm⟩, h.2.symm⟩
  · obtain ⟨-, hm⟩ | ⟨-, hm⟩ := State.memRead_cases s .opcodeFetch s.ip.toNat
    · simp only [hm] at h
      cases hr : opcodeRow (Memory.read s.ip.toNat s.mem) with
      | none =>
        simp only [hr, Except.error.injEq, Prod.mk.injEq] at h
        exact .inr (.inl ⟨_, h.1.symm, h.2.symm⟩)
      | some f =>
        simp only [hr] at h
        cases hf : s.fetchOperands f with
        | ok i => simp [hf] at h
        | error e =>
          simp only [hf, Except.error.injEq, Prod.mk.injEq] at h
          obtain ⟨k, -, -, -, rfl⟩ := State.fetchOperands_error hf
          exact .inr (.inr ⟨_, _, h.1.symm, h.2.symm⟩)
    · simp only [hm, Except.error.injEq, Prod.mk.injEq] at h
      exact .inl ⟨⟨_, h.1.symm⟩, h.2.symm⟩

/-! ### step -/

/-- Everything a step can do (R81, R82, R87, R89). -/
theorem step_cases {s t : State} (h : step s = .next t) :
    (s.runState ≠ .running ∧ t = s) ∨
      (s.runState = .running ∧ ∃ c op, s.fetch = .error (c, op) ∧ t = s.raise c op) ∨
      (s.runState = .running ∧ ∃ i u, s.fetch = .ok i ∧ exec i s = .next u ∧ Effect i s u ∧ t = u.poll) := by
  unfold step at h
  split at h
  · rename_i hr
    exact .inl ⟨by simp [hr], by simpa using h.symm⟩
  · rename_i hr
    exact .inl ⟨by simp [hr], by simpa using h.symm⟩
  · rename_i hr
    cases hf : s.fetch with
    | error e =>
      simp only [hf, Outcome.next.injEq] at h
      exact .inr (.inl ⟨hr, e.1, e.2, rfl, h.symm⟩)
    | ok i =>
      simp only [hf] at h
      cases he : exec i s with
      | next u =>
        simp only [he, Outcome.next.injEq] at h
        exact .inr (.inr ⟨hr, i, u, rfl, he, exec_effect he, h.symm⟩)
      | fault r => simp [he] at h
      | refused r => simp [he] at h

/-- A quiescent machine stays as it is (R81). -/
theorem step_of_not_running {s : State} (h : s.runState ≠ .running) : step s = .next s := by
  unfold step
  split
  · rfl
  · rfl
  · rename_i hr
    exact absurd hr h

/-- A Running machine whose fetch gives `i` executes it, then polls (R89). -/
theorem step_of_fetch {s : State} {i : Instr} (hr : s.runState = .running) (hf : s.fetch = .ok i) :
    step s = match exec i s with
      | .next t => .next t.poll
      | .fault r => .fault r
      | .refused r => .refused r := by
  cases he : exec i s <;> simp [step, hr, hf, he]

/-- A Running machine whose fetch faults takes the fault (R82, R83). -/
theorem step_of_fetch_error {s : State} {c : Cause} {op : Option Word} (hr : s.runState = .running)
    (hf : s.fetch = .error (c, op)) : step s = .next (s.raise c op) := by
  unfold step
  rw [hr]
  simp only [hf]

end Machine
end Sys2Proof
end

