-- ==== Sys2Proof/Laws/Io.lean ====
section
/-! SUPPORT. The IN protocol of spec/46_io.md R173 and R174, phase by phase. -/

namespace Sys2Proof
namespace Machine

@[simp] theorem inNoByte_true (p : InPhase) : inNoByte true p = .exhausted := rfl
@[simp] theorem inNoByte_false (p : InPhase) : inNoByte false p = .waits p := rfl

/-- A byte that is no delimiter is delivered (R173). -/
theorem inFirst_plain (ended : Bool) (c : Byte) (rest : List Byte) (h : c ≠ delimiter) :
    inFirst ended (c :: rest) = .delivered c none rest := by
  simp [inFirst, h]

/-- The delimiter opens the override (R173). -/
theorem inFirst_delimiter (ended : Bool) (rest : List Byte) :
    inFirst ended (delimiter :: rest) = inNumber ended none rest := by
  simp [inFirst]

/-- One digit of the number (R174). -/
theorem inNumber_digit (ended : Bool) (n : Option Word) (d : Byte) (m : Word) (rest : List Byte)
    (hd : d ≠ delimiter) (hm : addDigit n d = some m) :
    inNumber ended n (d :: rest) = inNumber ended (some m) rest := by
  simp [inNumber, hd, hm]

/-- The closing delimiter after a number (R174). -/
theorem inNumber_close (ended : Bool) (ov : Word) (rest : List Byte) :
    inNumber ended (some ov) (delimiter :: rest) = inLast ended ov rest := by
  simp [inNumber]

/-- What is left unread was offered: a result's rest is a suffix of the bytes. -/
theorem inNumber_rest (ended : Bool) (n : Option Word) (bs : List Byte) (rest : List Byte)
    (h : inNumber ended n bs = .malformed rest ∨ ∃ c ov, inNumber ended n bs = .delivered c ov rest) :
    ∃ pre, bs = pre ++ rest := by
  induction bs generalizing n with
  | nil => cases ended <;> simp [inNumber] at h
  | cons d bs ih =>
    by_cases hd : d = delimiter
    · cases n with
      | none =>
        simp only [inNumber, hd, if_true] at h
        obtain h | ⟨c, ov, h⟩ := h
        · simp only [InResult.malformed.injEq] at h
          exact ⟨[d], by simp [h]⟩
        · simp at h
      | some ov =>
        simp only [inNumber, hd, if_true] at h
        cases bs with
        | nil => cases ended <;> simp [inLast] at h
        | cons c bs =>
          simp only [inLast] at h
          obtain h | ⟨c', ov', h⟩ := h
          · simp at h
          · simp only [InResult.delivered.injEq] at h
            exact ⟨[d, c], by simp [h.2.2]⟩
    · cases hm : addDigit n d with
      | none =>
        simp only [inNumber, hd, if_false, hm] at h
        obtain h | ⟨c, ov, h⟩ := h
        · simp only [InResult.malformed.injEq] at h
          exact ⟨[d], by simp [h]⟩
        · simp at h
      | some m =>
        simp only [inNumber, hd, if_false, hm] at h
        obtain ⟨pre, hpre⟩ := ih (some m) h
        exact ⟨d :: pre, by simp [hpre]⟩

theorem inProtocol_rest (ended : Bool) (p : InPhase) (bs rest : List Byte)
    (h : inProtocol ended p bs = .malformed rest ∨ ∃ c ov, inProtocol ended p bs = .delivered c ov rest) :
    ∃ pre, bs = pre ++ rest := by
  cases p with
  | number n => exact inNumber_rest ended n bs rest h
  | first =>
    simp only [inProtocol] at h
    cases bs with
    | nil => cases ended <;> simp [inFirst] at h
    | cons c bs =>
      by_cases hc : c = delimiter
      · simp only [inFirst, hc, if_true] at h
        obtain ⟨pre, hpre⟩ := inNumber_rest ended none bs rest h
        exact ⟨c :: pre, by simp [hpre]⟩
      · simp only [inFirst, hc, if_false] at h
        obtain h | ⟨c', ov', h⟩ := h
        · simp at h
        · simp only [InResult.delivered.injEq] at h
          exact ⟨[c], by simp [h.2.2]⟩
  | last ov =>
    simp only [inProtocol] at h
    cases bs with
    | nil => cases ended <;> simp [inLast] at h
    | cons c bs =>
      simp only [inLast] at h
      obtain h | ⟨c', ov', h⟩ := h
      · simp at h
      · simp only [InResult.delivered.injEq] at h
        exact ⟨[c], by simp [h.2.2]⟩

/-- An IN never waits once end-of-input has been answered (R170). -/
theorem inNumber_ended (n : Option Word) (bs : List Byte) (p : InPhase) : inNumber true n bs ≠ .waits p := by
  induction bs generalizing n with
  | nil => simp [inNumber]
  | cons d bs ih =>
    by_cases hd : d = delimiter
    · cases n with
      | none => simp [inNumber, hd]
      | some ov => cases bs <;> simp [inNumber, hd, inLast]
    · cases hm : addDigit n d with
      | none => simp [inNumber, hd, hm]
      | some m => simpa [inNumber, hd, hm] using ih (some m)

/-- A wait goes on where it stopped: the bytes so far, then more bytes, are one reading (R170). -/
theorem inNumber_append (ended : Bool) (n : Option Word) (xs ys : List Byte) (p : InPhase)
    (h : inNumber false n xs = .waits p) : inNumber ended n (xs ++ ys) = inProtocol ended p ys := by
  induction xs generalizing n with
  | nil =>
    simp only [inNumber, inNoByte_false, InResult.waits.injEq] at h
    subst h
    rfl
  | cons d xs ih =>
    by_cases hd : d = delimiter
    · cases n with
      | none => simp [inNumber, hd] at h
      | some ov =>
        cases xs with
        | nil =>
          simp only [inNumber, hd, if_true, inLast, inNoByte_false, InResult.waits.injEq] at h
          subst h
          simp [inNumber, hd, inProtocol]
        | cons c xs => simp [inNumber, hd, inLast] at h
    · cases hm : addDigit n d with
      | none => simp [inNumber, hd, hm] at h
      | some m =>
        simp only [inNumber, hd, if_false, hm] at h
        simpa [inNumber, hd, hm] using ih (some m) h

end Machine
end Sys2Proof
end

