-- ==== Sys2Proof/Laws/PerInstr.lean ====
section
/-! SUPPORT. Families of lemmas with one lemma per instruction, for statements about the syntax. -/

namespace Sys2Proof
namespace Laws
namespace Length

/-- The opcode map's row of the instruction's opcode has its operand count, and its encoding is "1 + operand count" Words, 1 to 4
(spec/30_encoding.md R60, R67, R68, spec/00_scope.md R7). -/
def Statement (i : Instr) : Prop :=
  (opcodeRow i.opcode).map Format.operandCount = some i.operands.length ∧
    (encode i).length = i.length ∧ i.length ≤ 4

theorem halt : Statement (.halt) := ⟨rfl, rfl, by decide⟩

theorem set (a b : Operand) : Statement (.set a b) := ⟨rfl, rfl, by simp [Instr.length, Instr.operands]⟩

theorem push (a : Operand) : Statement (.push a) := ⟨rfl, rfl, by simp [Instr.length, Instr.operands]⟩

theorem pop (a : Operand) : Statement (.pop a) := ⟨rfl, rfl, by simp [Instr.length, Instr.operands]⟩

theorem eq (a b c : Operand) : Statement (.eq a b c) := ⟨rfl, rfl, by simp [Instr.length, Instr.operands]⟩

theorem gt (a b c : Operand) : Statement (.gt a b c) := ⟨rfl, rfl, by simp [Instr.length, Instr.operands]⟩

theorem jmp (a : Operand) : Statement (.jmp a) := ⟨rfl, rfl, by simp [Instr.length, Instr.operands]⟩

theorem jt (a b : Operand) : Statement (.jt a b) := ⟨rfl, rfl, by simp [Instr.length, Instr.operands]⟩

theorem jf (a b : Operand) : Statement (.jf a b) := ⟨rfl, rfl, by simp [Instr.length, Instr.operands]⟩

theorem add (a b c : Operand) : Statement (.add a b c) := ⟨rfl, rfl, by simp [Instr.length, Instr.operands]⟩

theorem mult (a b c : Operand) : Statement (.mult a b c) := ⟨rfl, rfl, by simp [Instr.length, Instr.operands]⟩

theorem mod (a b c : Operand) : Statement (.mod a b c) := ⟨rfl, rfl, by simp [Instr.length, Instr.operands]⟩

theorem and (a b c : Operand) : Statement (.and a b c) := ⟨rfl, rfl, by simp [Instr.length, Instr.operands]⟩

theorem or (a b c : Operand) : Statement (.or a b c) := ⟨rfl, rfl, by simp [Instr.length, Instr.operands]⟩

theorem not (a b : Operand) : Statement (.not a b) := ⟨rfl, rfl, by simp [Instr.length, Instr.operands]⟩

theorem rmem (a b : Operand) : Statement (.rmem a b) := ⟨rfl, rfl, by simp [Instr.length, Instr.operands]⟩

theorem wmem (a b : Operand) : Statement (.wmem a b) := ⟨rfl, rfl, by simp [Instr.length, Instr.operands]⟩

theorem call (a : Operand) : Statement (.call a) := ⟨rfl, rfl, by simp [Instr.length, Instr.operands]⟩

theorem ret : Statement (.ret) := ⟨rfl, rfl, by decide⟩

theorem out (a : Operand) : Statement (.out a) := ⟨rfl, rfl, by simp [Instr.length, Instr.operands]⟩

theorem inp (a : Operand) : Statement (.inp a) := ⟨rfl, rfl, by simp [Instr.length, Instr.operands]⟩

theorem noop : Statement (.noop) := ⟨rfl, rfl, by decide⟩

end Length
end Laws
end Sys2Proof
end

