-- ==== Sys2Proof/Laws/Snapshot.lean ====
section
/-! SUPPORT. Restoring a snapshot: what it answers for a valid one, and that it answers nothing else. -/

namespace Sys2Proof
namespace Machine

theorem Snapshot.restorable_iff (c : Config) (x : Snapshot) :
    x.restorable c = true ↔ x.regs.length = 8 ∧ x.programSize ≤ x.memSize ∧ x.memSize ≤ 32768 ∧
      c.stackAllows x.stack.length = true ∧ Memory.wf x.mem = true ∧ Memory.below x.memSize x.mem = true := by
  simp [Snapshot.restorable, and_assoc]

/-- A valid snapshot is installed field by field (R217). -/
theorem State.restore_of_restorable (s : State) (x : Snapshot) (regs : Regs) (hregs : Regs.ofList x.regs = some regs)
    (h : x.restorable s.config = true) : s.restore x = .ok { s with
      ip := x.ip, regs := regs, stack := x.stack.reverse, mem := x.mem, memSize := x.memSize
      programSize := x.programSize, runningFlag := true, runState := .running
      faultRecord := FaultRecord.clear, cancel := false, inPhase := none } := by
  obtain ⟨-, hp, hm, hst, hw, hb⟩ := (Snapshot.restorable_iff _ _).1 h
  unfold State.restore
  rw [hregs]
  simp [hp, hm, hst, hw, hb]

/-- A restore that answers a machine was of a valid snapshot (R218). -/
theorem State.restore_ok {s t : State} {x : Snapshot} (h : s.restore x = .ok t) :
    x.restorable s.config = true ∧ ∃ regs, Regs.ofList x.regs = some regs := by
  unfold State.restore at h
  cases hregs : Regs.ofList x.regs with
  | none => simp [hregs] at h
  | some regs =>
    have h8 : x.regs.length = 8 := by
      by_contra hne
      rw [Regs.ofList_eq_none _ hne] at hregs
      cases hregs
    simp only [hregs] at h
    split at h
    · cases h
    · split at h
      · cases h
      · split at h
        · cases h
        · rename_i h1 h2 h3
          simp only [Bool.and_eq_true, Decidable.not_not] at h1 h2 h3
          exact ⟨(Snapshot.restorable_iff _ _).2 ⟨h8, h1.1, h1.2, h2, h3.1, h3.2⟩, regs, rfl⟩

/-- The snapshot of a machine that meets the sizes is restorable (R216, R218). -/
theorem State.snapshot_restorable (s : State) (hI : s.Inv) : s.snapshot.restorable s.config = true :=
  (Snapshot.restorable_iff _ _).2 ⟨rfl, hI.programFits, hI.memFits,
    by simpa [State.snapshot] using hI.stackFits, hI.memCanonical, hI.memInside⟩

end Machine
end Sys2Proof
end

