-- ==== Sys2Proof/Tests/Slice0.lean ====
section
/-! SUPPORT. Tests. Every expected result is the spec's: the encodings of spec/30_encoding.md R67 and R75 written out by hand, and the
vectors of spec/95_test_vectors.md, named beside each test. The second half gives, for each statement with hypotheses, a concrete input
that meets them. -/

namespace Sys2Proof
namespace Tests

open Machine

/-! ### helpers -/

/-- The default start state of spec/95_test_vectors.md section 0: the words at address 0 of an image of 8, padded with NOOPs. -/
def machine (words : List Word) : State := State.reset.boot (words ++ List.replicate (8 - words.length) 21)

/-- What `f` shows of the state after one step. -/
def after {α : Type} (f : State → α) (s : State) : Option α :=
  match step s with
  | .next t => some (f t)
  | .fault _ => none
  | .refused _ => none

/-- r0 and the IP. -/
def r0ip (s : State) : Word × Word := (s.readReg .r0, s.ip)

/-- Status word, FaultIP, and FaultOpcode if valid. -/
def faultView (s : State) : BitVec 8 × Word × Option Word :=
  (s.statusWord, s.faultRecord.faultIp, if s.faultRecord.opcodeValid then some s.faultRecord.faultOpcode else none)

/-- FaultAddr, if valid, and FaultAccess. -/
def faultAddrView (s : State) : Option Word × Access :=
  (if s.faultRecord.addrValid then some s.faultRecord.faultAddr else none, s.faultRecord.faultAccess)

/-- A machine with r1 and r2 set. -/
def machine12 (words : List Word) (x y : Word) : State := { machine words with regs := { Regs.zero with r1 := x, r2 := y } }

/-- A machine with input bytes offered, and end-of-input after them if `ended`. -/
def withInput (words : List Word) (bytes : List Byte) (ended : Bool) : State :=
  { machine words with input := bytes, inputEnded := ended }

/-- The outcome is the next state given. -/
def isNext (o : Host.Outcome State Fault Refusal) (t : State) : Bool :=
  match o with
  | .next u => decide (u = t)
  | .fault _ => false
  | .refused _ => false

/-- The word decodes to the instruction and nothing is left. -/
def decodesTo (words : List Word) (i : Instr) : Bool :=
  match decode words with
  | .ok (j, rest) => decide (j = i) && rest.isEmpty
  | .error _ => false

/-- The decoder refuses the bytes with this error. -/
def bytesRefused (bytes : List Byte) (e : DecodeError) : Bool :=
  match decodeBytes bytes with
  | .ok _ => false
  | .error x => decide (x = e)

/-! ### well-formedness -/

theorem test_wf_refuses_first_operand : (Instr.push (.invalid 32775)).wf = false := by decide
theorem test_wf_refuses_second_operand : (Instr.jt (.lit 1) (.invalid 5)).wf = false := by decide
theorem test_wf_refuses_third_operand : (Instr.add (.reg .r0) (.lit 1) (.invalid 0)).wf = false := by decide
theorem test_wf_refuses_each_shape :
    ([Instr.set (.lit 0) (.invalid 1), .pop (.invalid 1), .eq (.invalid 1) (.lit 0) (.lit 0), .gt (.lit 0) (.invalid 1) (.lit 0),
      .jmp (.invalid 1), .jf (.invalid 1) (.lit 0), .mult (.lit 0) (.lit 0) (.invalid 1), .mod (.invalid 1) (.lit 0) (.lit 0),
      .and (.lit 0) (.invalid 1) (.lit 0), .or (.lit 0) (.lit 0) (.invalid 1), .not (.invalid 1) (.lit 0),
      .rmem (.lit 0) (.invalid 1), .wmem (.invalid 1) (.lit 0), .call (.invalid 1), .out (.invalid 1),
      .inp (.invalid 1)].all fun i => !i.wf) = true := by decide
theorem test_wf_admits_invalid_words : (Instr.out (.invalid 32776)).wf = true := by decide
theorem test_legal_refuses_literal_destination : (Instr.set (.lit 5) (.lit 7)).legal = false := by decide
theorem test_legal_refuses_invalid_value : (Instr.jf (.lit 5) (.invalid 40000)).legal = false := by decide

/-! ### decoding, from words written out by hand (R67, R75) -/

theorem test_decode_f0 : (decodesTo [0] .halt && decodesTo [18] .ret && decodesTo [21] .noop) = true := by decide
theorem test_decode_f1 :
    (decodesTo [2, 7] (.push (.lit 7)) && decodesTo [3, 32768] (.pop (.reg .r0)) && decodesTo [6, 10] (.jmp (.lit 10))
      && decodesTo [17, 32775] (.call (.reg .r7)) && decodesTo [19, 32769] (.out (.reg .r1))
      && decodesTo [20, 32771] (.inp (.reg .r3))) = true := by decide
theorem test_decode_f2 :
    (decodesTo [1, 32770, 4] (.set (.reg .r2) (.lit 4)) && decodesTo [7, 32768, 6] (.jt (.reg .r0) (.lit 6))
      && decodesTo [8, 0, 100] (.jf (.lit 0) (.lit 100)) && decodesTo [14, 32772, 32773] (.not (.reg .r4) (.reg .r5))
      && decodesTo [15, 32768, 20] (.rmem (.reg .r0) (.lit 20)) && decodesTo [16, 20, 65] (.wmem (.lit 20) (.lit 65))) = true := by
  decide
theorem test_decode_f3 :
    (decodesTo [4, 32768, 32769, 7] (.eq (.reg .r0) (.reg .r1) (.lit 7))
      && decodesTo [5, 32768, 3, 2] (.gt (.reg .r0) (.lit 3) (.lit 2))
      && decodesTo [9, 32769, 32769, 32767] (.add (.reg .r1) (.reg .r1) (.lit 32767))
      && decodesTo [10, 32768, 16384, 3] (.mult (.reg .r0) (.lit 16384) (.lit 3))
      && decodesTo [11, 32774, 17, 5] (.mod (.reg .r6) (.lit 17) (.lit 5))
      && decodesTo [12, 32768, 12, 10] (.and (.reg .r0) (.lit 12) (.lit 10))
      && decodesTo [13, 32768, 12, 32776] (.or (.reg .r0) (.lit 12) (.invalid 32776))) = true := by decide
theorem test_decode_bytes_low_first : decodeBytes [0x01, 0x00, 0x00, 0x80, 0x04, 0x00] = .ok (.set (.reg .r0) (.lit 4), []) := by rfl
theorem test_decode_refuses_opcode_22 : bytesRefused [22, 0, 0, 0] (.invalidOpcode 22) = true := by decide
theorem test_decode_refuses_truncated : bytesRefused [9, 0, 0, 0x80] .truncated = true := by decide
theorem test_decode_refuses_odd : bytesRefused [21, 0, 0] .oddLength = true := by decide
theorem test_encode_words : encode (.add (.reg .r1) (.lit 32767) (.invalid 65535)) = [9, 32769, 32767, 65535] := by decide
theorem test_table_word : decodeTableWord 48 0x000480000001 = some (.set (.reg .r0) (.lit 4)) := by decide
theorem test_table_word_opcode_only : decodeTableWord 16 9 = some (.add (.lit 0) (.lit 0) (.lit 0)) := by decide
theorem test_table_word_refused : decodeTableWord 16 22 = none := by decide
theorem test_with_fetch_word : after r0ip (State.reset.withFetchWord 48 0x000480000001) = some (4, 3) := by decide

/-! ### fetch and operands (V1) -/

/-- V1-1 -/
theorem test_fetch_past_program :
    after (fun t => (faultView t, faultAddrView t)) { machine [] with ip := 8 }
      = some ((0x43, 8, none), (some 8, .opcodeFetch)) := by decide
/-- V1-3 -/
theorem test_fetch_invalid_opcode : after faultView (machine [65535]) = some (0x53, 0, some 65535) := by decide
/-- V1-4 -/
theorem test_fetch_operand_outside :
    after (fun t => (faultView t, faultAddrView t))
        ({ State.reset with config := { Config.default with memSize := 2 } }.boot [9, 32768])
      = some ((0x43, 0, some 9), (some 2, .operandFetch)) := by decide
/-- V1-5 -/
theorem test_fetch_operand_in_headroom : after r0ip (State.reset.boot [1, 32768]) = some (0, 3) := by decide
/-- V1-8: InvalidOperand comes before DivideByZero -/
theorem test_invalid_operand_first : after faultView (machine [11, 32768, 32776, 0]) = some (0x33, 0, some 11) := by decide
/-- V1-9: InvalidOperand comes before StackUnderflow -/
theorem test_invalid_destination_first : after faultView (machine [3, 5]) = some (0x33, 0, some 3) := by decide

/-! ### system, register and stack (V2) -/

/-- V2-1, V2-2: no snapshot after HALT, the latch is not read -/
theorem test_halt :
    after (fun t => (t.statusWord, t.ip, t.runningFlag, t.cancel, t.snapshots.length)) { machine [0] with cancel := true }
      = some (0x01, 0, false, true, 0) := by decide
/-- V2-3 -/
theorem test_noop : after (fun t => (t.ip, t.statusWord)) (machine [21]) = some (1, 0x00) := by decide
/-- V2-5 -/
theorem test_set_literal : after (fun t => (t.readReg .r3, t.ip)) (machine [1, 32771, 32767]) = some (32767, 3) := by decide
/-- V2-6 -/
theorem test_set_wide : after r0ip (machine12 [1, 32768, 32769] 65535 0) = some (65535, 3) := by decide
/-- V2-10, the top first -/
theorem test_push : after (fun t => (t.stack, t.ip)) { machine12 [2, 32770] 0 40000 with stack := [1] } = some ([40000, 1], 2) := by
  decide
/-- V2-11 -/
theorem test_push_overflow :
    after (fun t => (faultView t, t.stack)) { machine [2, 7] with
      config := { Config.default with stackCap := some 1 }, stack := [9] } = some ((0x63, 0, some 2), [9]) := by decide
/-- V2-12 -/
theorem test_pop : after (fun t => (r0ip t, t.stack)) { machine [3, 32768] with stack := [2, 1] } = some ((2, 2), [1]) := by decide
/-- V2-13 -/
theorem test_pop_underflow : after faultView (machine [3, 32768]) = some (0x13, 0, some 3) := by decide

/-! ### ALU (V3) -/

/-- V3-4 -/
theorem test_eq_same_register : after r0ip { machine [4, 32768, 32768, 32768] with regs := { Regs.zero with r0 := 9 } } = some (1, 4) := by
  decide
/-- V3-3 -/
theorem test_eq_wide : after r0ip (machine12 [4, 32768, 32769, 0] 32768 0) = some (0, 4) := by decide
/-- V3-8 -/
theorem test_gt_unsigned : after r0ip (machine12 [5, 32768, 32769, 32767] 65535 0) = some (1, 4) := by decide
/-- V3-7 -/
theorem test_gt_order : after r0ip (machine [5, 32768, 5, 6]) = some (0, 4) := by decide
/-- V3-10 -/
theorem test_add_wraps : after r0ip (machine [9, 32768, 32767, 1]) = some (0, 4) := by decide
/-- V3-13 -/
theorem test_add_wide : after r0ip (machine12 [9, 32768, 32769, 32770] 65535 65535) = some (32766, 4) := by decide
/-- V3-17 -/
theorem test_mult_wraps : after r0ip (machine [10, 32768, 16384, 3]) = some (16384, 4) := by decide
/-- V3-19 -/
theorem test_mult_wide : after r0ip (machine12 [10, 32768, 32769, 32770] 65535 65535) = some (1, 4) := by decide
/-- V3-26 -/
theorem test_mod_wide : after r0ip (machine12 [11, 32768, 32769, 7] 65535 0) = some (1, 4) := by decide
/-- V3-29 -/
theorem test_mod_zero : after faultView (machine [11, 32768, 7, 32769]) = some (0x23, 0, some 11) := by decide
/-- V3-34 -/
theorem test_and_wide : after r0ip (machine12 [12, 32768, 32769, 32770] 65535 65535) = some (65535, 4) := by decide
/-- V3-34 under MASK15 -/
theorem test_and_masked :
    after r0ip { machine12 [12, 32768, 32769, 32770] 65535 65535 with config := { Config.default with wideLogic := .mask15 } }
      = some (32767, 4) := by decide
/-- V3-35 -/
theorem test_or : after r0ip (machine [13, 32768, 12, 10]) = some (14, 4) := by decide
/-- V3-38 under MASK15 -/
theorem test_or_masked :
    after r0ip { machine12 [13, 32768, 32769, 1] 32768 0 with config := { Config.default with wideLogic := .mask15 } }
      = some (1, 4) := by decide
/-- V3-43 -/
theorem test_not_wide : after r0ip (machine12 [14, 32768, 32769] 65535 0) = some (32768, 3) := by decide
/-- V3-43 under MASK15 -/
theorem test_not_masked :
    after r0ip { machine12 [14, 32768, 32769] 65535 0 with config := { Config.default with wideLogic := .mask15 } }
      = some (0, 3) := by decide

/-! ### control transfer (V4) -/

/-- V4-3 -/
theorem test_jmp_register : after (fun t => (t.ip, t.statusWord)) (machine12 [6, 32769] 40000 0) = some (40000, 0x00) := by decide
/-- V4-6 -/
theorem test_jt_taken : after (·.ip) (machine12 [7, 32769, 6] 32768 0) = some 6 := by decide
/-- V4-7 -/
theorem test_jt_not_taken : after (·.ip) (machine [7, 0, 6]) = some 3 := by decide
/-- V4-8 -/
theorem test_jf_taken : after (·.ip) (machine [8, 0, 6]) = some 6 := by decide
/-- V4-9 -/
theorem test_jf_not_taken : after (·.ip) (machine [8, 2, 6]) = some 3 := by decide
/-- V4-11 -/
theorem test_call : after (fun t => (t.stack, t.ip)) { machine [17, 6] with stack := [1] } = some ([2, 1], 6) := by decide
/-- V4-13 -/
theorem test_call_overflow :
    after (fun t => (faultView t, t.ip)) { machine [17, 6] with config := { Config.default with stackCap := some 0 } }
      = some ((0x63, 0, some 17), 0) := by decide
/-- V4-14 -/
theorem test_ret : after (fun t => (t.stack, t.ip)) { machine [18] with stack := [2] } = some ([], 2) := by decide
/-- V4-15 -/
theorem test_ret_underflow : after faultView (machine [18]) = some (0x13, 0, some 18) := by decide

/-! ### memory (V5) -/

/-- V5-4 -/
theorem test_rmem_own_operand : after (fun t => (t.readReg .r1, t.ip)) (machine [15, 32769, 1]) = some (32769, 3) := by decide
/-- V5-5 -/
theorem test_rmem_outside :
    after (fun t => (faultView t, faultAddrView t)) (machine12 [15, 32768, 32769] 32768 0)
      = some ((0x43, 0, some 15), (some 32768, .rmemRead)) := by decide
/-- V5-9 -/
theorem test_wmem : after (fun t => (Memory.read 30 t.mem, t.ip)) (machine12 [16, 30, 32769] 65535 0) = some (65535, 3) := by decide
/-- V5-10 -/
theorem test_wmem_outside :
    after (fun t => (faultView t, faultAddrView t, Memory.read 100 t.mem)) { machine [16, 100, 1] with memSize := 100 }
      = some ((0x43, 0, some 16), (some 100, .wmemWrite), 0) := by decide

/-! ### input and output (V6) -/

/-- V6-2 -/
theorem test_out_low_byte : after (fun t => (t.output, t.ip)) (machine [19, 321]) = some ([65], 2) := by decide
/-- V6-5 -/
theorem test_out_invalid : after (fun t => (faultView t, t.output)) (machine [19, 32776]) = some ((0x33, 0, some 19), []) := by decide
/-- V6-11: the override is written first, the byte last -/
theorem test_in_override_then_byte :
    after (fun t => (t.readReg .r7, t.ip, t.input)) (withInput [20, 32775] [124, 53, 124, 88] false) = some (88, 2, []) := by decide
/-- V6-18: six bytes are consumed -/
theorem test_in_above_65535 :
    after (fun t => (faultView t, t.input, t.readReg .r7))
        (withInput [20, 32768] [124, 54, 53, 53, 51, 54, 124, 88] false)
      = some ((0x83, 0, some 20), [124, 88], 0) := by decide
/-- V6-15 -/
theorem test_in_exhausted_after_override :
    after (fun t => (faultView t, t.input, t.readReg .r7, t.readReg .r0)) (withInput [20, 32768] [124, 49, 50, 124] true)
      = some ((0x73, 0, some 20), [], 0, 0) := by decide
/-- V6-20, V8-5: no answer, no polling point -/
theorem test_in_waits :
    after (fun t => (t.statusWord, t.ip, t.cancel, t.snapshots.length)) { machine [20, 32768] with cancel := true }
      = some (0x00, 0, true, 0) := by decide

/-! ### suspend, restore, load (V8, V9) -/

/-- V8-1: status, latch and the words before the memory of the one snapshot -/
theorem test_suspend_snapshot :
    after (fun t => (t.statusWord, t.cancel, t.snapshots.map fun x => x.ip :: x.regs ++ x.stack))
        { State.reset.boot [1, 32768, 4, 19, 32768, 0] with cancel := true }
      = some (0x02, false, [[3, 4, 0, 0, 0, 0, 0, 0, 0]]) := by decide
/-- V8-1: memory length, ProgramSize and RunningFlag of that snapshot -/
theorem test_suspend_sizes :
    after (fun t => t.snapshots.map fun x => (x.memSize, x.programSize, x.runningFlag))
        { State.reset.boot [1, 32768, 4, 19, 32768, 0] with cancel := true }
      = some [(32768, 6, false)] := by decide
/-- V8-6 -/
theorem test_restore_refuses_seven_registers :
    (machine []).host (.restore { (machine []).snapshot with regs := [0, 0, 0, 0, 0, 0, 0] })
      = .error (.snapshotRefused .notEightRegisters) := by rfl
/-- V9-2 -/
theorem test_load_words :
    (match State.reset.load [0x01, 0x00, 0x00, 0x80, 0x04, 0x00] with
      | .ok t => decide (t.mem = [(0, 1), (1, 32768), (2, 4)] ∧ t.programSize = 3)
      | .error _ => false) = true := by decide
/-- V9-4 -/
theorem test_load_refuses_odd : State.reset.load [0x15, 0x00, 0x00] = .error .oddImage := by rfl

/-! ### inputs that meet the hypotheses of each statement -/

/-- A machine of memory length 8 whose program fills its memory. -/
def tight (words : List Word) : State := { State.reset with config := { Config.default with memSize := 8 } }.boot
  (words ++ List.replicate (8 - words.length) 21)

/-- A machine with room for `cap` stack entries. -/
def capped (words : List Word) (cap : Nat) (stack : List Word) : State :=
  { machine words with config := { Config.default with stackCap := some cap }, stack := stack }

/-- A machine with WIDE_LOGIC = MASK15. -/
def masked (words : List Word) : State := { machine words with config := { Config.default with wideLogic := .mask15 } }

/-- The invariant of a machine with no IN in progress, no snapshot and no fault, from its decidable parts. -/
theorem inv_of_parts (s : State) (h : (Memory.wf s.mem && Memory.below s.memSize s.mem && decide (s.programSize ≤ s.memSize)
    && decide (s.memSize ≤ 32768) && s.config.stackAllows s.stack.length && s.config.wf) = true)
    (flag : s.runningFlag = decide (s.runState = .running)) (alive : s.runState ≠ .faulted)
    (clear : s.faultRecord = FaultRecord.clear) (phase : s.inPhase = none) (none_out : s.snapshots = []) : s.Inv := by
  simp only [Bool.and_eq_true, decide_eq_true_eq] at h
  obtain ⟨⟨⟨⟨⟨h1, h2⟩, h3⟩, h4⟩, h5⟩, h6⟩ := h
  exact ⟨h1, h2, h3, h4, h5, flag, fun _ => clear, fun e => absurd e alive, fun e => absurd phase e, by simp [none_out], h6⟩

theorem witness_DecodeInvertsEncode : (Instr.add (.reg .r0) (.lit 32767) (.invalid 32776)).wf = true := by decide

theorem witness_EncodeInvertsDecode :
    decode [9, 32775, 32767, 32776, 7] = .ok (.add (.reg .r7) (.lit 32767) (.invalid 32776), [7]) := by rfl

theorem witness_OperandValueByWordClass :
    (32767 : Word).toNat < 32768 ∧ (32768 ≤ (32768 : Word).toNat ∧ (32768 : Word).toNat < 32776)
      ∧ (32768 ≤ (32775 : Word).toNat ∧ (32775 : Word).toNat < 32776) ∧ 32776 ≤ (32776 : Word).toNat
      ∧ 32776 ≤ (65535 : Word).toNat := by decide

theorem witness_DestinationByWordClass :
    (32768 ≤ (32768 : Word).toNat ∧ (32768 : Word).toNat < 32776) ∧ (32768 ≤ (32775 : Word).toNat ∧ (32775 : Word).toNat < 32776)
      ∧ (32767 : Word).toNat < 32768 ∧ 32776 ≤ (32776 : Word).toNat := by decide

theorem witness_IllegalOperandFaults :
    (Instr.set (.lit 32767) (.lit 0)).legal = false ∧ (Instr.wmem (.lit 0) (.invalid 32776)).legal = false := by decide

theorem witness_OpcodeFetchFaults_past_program :
    let s := { tight [] with ip := 8 }
    s.runState = .running ∧ s.programSize ≤ s.memSize ∧ s.programSize ≤ s.ip.toNat := by decide

theorem witness_OpcodeFetchFaults_opcode :
    let s := { tight [21, 21, 21, 21, 21, 21, 21, 22] with ip := 7 }
    s.runState = .running ∧ s.programSize ≤ s.memSize ∧ s.ip.toNat < s.programSize
      ∧ 22 ≤ (Memory.read s.ip.toNat s.mem).toNat := by decide

theorem witness_OperandFetchOutsideMemoryFaults_first :
    let s := { tight [21, 21, 21, 21, 21, 21, 21, 2] with ip := 7 }
    (s.runState = .running ∧ s.programSize ≤ s.memSize ∧ s.ip.toNat < s.programSize ∧
      opcodeRow (Memory.read s.ip.toNat s.mem) = some (.f1 .push) ∧ 1 ≤ (Format.f1 .push).operandCount ∧
      s.ip.toNat < s.memSize ∧ s.memSize ≤ s.ip.toNat + 1) :=
  ⟨rfl, by decide, by decide, rfl, by decide, by decide, by decide⟩

theorem witness_OperandFetchOutsideMemoryFaults_third :
    let s := { tight [21, 21, 21, 21, 21, 9] with ip := 5 }
    (s.runState = .running ∧ s.programSize ≤ s.memSize ∧ s.ip.toNat < s.programSize ∧
      opcodeRow (Memory.read s.ip.toNat s.mem) = some (.f3 .add) ∧ 3 ≤ (Format.f3 .add).operandCount ∧
      (∀ j, j < 3 → s.ip.toNat + j < s.memSize) ∧ s.memSize ≤ s.ip.toNat + 3) :=
  ⟨rfl, by decide, by decide, rfl, by decide, by decide, by decide⟩

theorem witness_StepRunsDecodedInstruction :
    let s := { tight [21, 21, 21, 21, 9, 32768, 1, 2] with ip := 4 }
    s.runState = .running ∧ s.ip.toNat < s.programSize ∧ s.programSize ≤ s.memSize ∧
      s.ip.toNat + (Instr.add (.reg .r0) (.lit 1) (.lit 2)).length ≤ s.memSize ∧
      decode ((List.range 4).map fun k => Memory.read (s.ip.toNat + k) s.mem) = .ok (.add (.reg .r0) (.lit 1) (.lit 2), []) :=
  ⟨rfl, by decide, by decide, by decide, rfl⟩

theorem witness_QuiescentMachineStays :
    ({ machine [0] with runState := .halted .halt } : State).quiescent ∧
      ({ machine [0] with runState := .halted .suspend } : State).quiescent ∧
      ({ machine [0] with runState := .faulted } : State).quiescent :=
  ⟨by decide, by decide, by decide⟩

theorem witness_PollingPointSuspends_taken :
    let s := { machine [21] with cancel := true }
    s.runState = .running ∧ s.fetch = .ok .noop ∧
      ∃ t, exec .noop s = .next t ∧ t.runState = .running ∧ t.inPhase = none ∧ t.cancel = true :=
  ⟨rfl, rfl, _, rfl, rfl, rfl, rfl⟩

theorem witness_PollingPointSuspends_halt :
    let s := { machine [0] with cancel := true }
    s.runState = .running ∧ s.fetch = .ok .halt ∧ ∃ t, exec .halt s = .next t ∧ t.runState ≠ .running :=
  ⟨rfl, rfl, _, rfl, by decide⟩

theorem witness_PollingPointSuspends_waiting :
    let s := { machine [20, 32768] with cancel := true }
    s.runState = .running ∧ s.fetch = .ok (.inp (.reg .r0)) ∧ ∃ t, exec (.inp (.reg .r0)) s = .next t ∧ t.inPhase ≠ none :=
  ⟨rfl, rfl, _, rfl, by decide⟩

theorem witness_PollingPointSuspends_no_request :
    (machine [21]).fetch = .ok .noop ∧ ∃ t, exec .noop (machine [21]) = .next t ∧ t.cancel = false := ⟨rfl, _, rfl, rfl⟩

theorem witness_PollingPointSuspends_fetch_fault :
    (machine [22]).runState = .running ∧ (machine [22]).fetch = .error (.invalidOpcode, some 22) := ⟨rfl, rfl⟩

theorem witness_CancelLatchInvisibleToPrograms : ∃ t, exec (.push (.lit 7)) (machine [2, 7]) = .next t := ⟨_, rfl⟩

theorem witness_SetCopiesValue :
    operandVal (machine []) (.lit 32767) = .ok 32767 ∧ operandVal (machine12 [] 65535 0) (.reg .r1) = .ok 65535 ∧
      (Operand.lit 0).isReg = false ∧ (Operand.invalid 32776).isValue = false := ⟨rfl, rfl, rfl, rfl⟩

theorem witness_PushAddsTop :
    let s := capped [] 1 []
    let full := capped [] 1 [9]
    operandVal s (.lit 7) = .ok 7 ∧ s.config.stackAllows (s.stack.length + 1) = true ∧
      operandVal full (.lit 7) = .ok 7 ∧ full.config.stackAllows (full.stack.length + 1) = false ∧
      (Operand.invalid 32776).isValue = false := ⟨rfl, rfl, rfl, rfl, rfl⟩

theorem witness_PopTakesTop :
    ({ machine [] with stack := [40000] } : State).stack = 40000 :: [] ∧ (machine []).stack = [] ∧ (Operand.lit 5).isReg = false :=
  ⟨rfl, rfl, rfl⟩

theorem witness_EqAndGtCompareUnsigned :
    operandVal (machine12 [] 32768 0) (.reg .r1) = .ok 32768 ∧ operandVal (machine12 [] 32768 0) (.lit 0) = .ok 0 ∧
      (Operand.lit 0).isReg = false ∧ (Operand.invalid 32776).isValue = false := ⟨rfl, rfl, rfl, rfl⟩

theorem witness_AddAndMultModulo32768 :
    operandVal (machine12 [] 65535 1) (.reg .r1) = .ok 65535 ∧ operandVal (machine12 [] 65535 1) (.reg .r2) = .ok 1 ∧
      (Operand.invalid 32776).isReg = false ∧ (Operand.invalid 32776).isValue = false := ⟨rfl, rfl, rfl, rfl⟩

theorem witness_WrappingAdderRealisesAddAndMult :
    let s := machine12 [] 65535 65535
    operandVal s (.reg .r1) = .ok 65535 ∧ operandVal s (.reg .r2) = .ok 65535 ∧
      (∃ t, exec (.add (.reg .r0) (.reg .r1) (.reg .r2)) s = .next t) ∧
      ∃ u, exec (.mult (.reg .r0) (.reg .r1) (.reg .r2)) s = .next u := ⟨rfl, rfl, ⟨_, rfl⟩, _, rfl⟩

theorem witness_ModRemainderOrDivideByZero :
    operandVal (machine []) (.lit 17) = .ok 17 ∧ operandVal (machine []) (.lit 1) = .ok 1 ∧ (1 : Word).toNat ≠ 0 ∧
      operandVal (machine []) (.lit 0) = .ok 0 ∧ (0 : Word).toNat = 0 ∧ (Operand.lit 0).isReg = false ∧
      (Operand.invalid 32776).isValue = false := ⟨rfl, rfl, by decide, rfl, rfl, rfl, rfl⟩

theorem witness_AndAndOrBitwise :
    operandVal (machine12 [] 65535 32768) (.reg .r1) = .ok 65535 ∧ operandVal (machine12 [] 65535 32768) (.reg .r2) = .ok 32768 ∧
      (machine12 [] 65535 32768).config.wideLogic = .full16 ∧ operandVal (masked []) (.lit 12) = .ok 12 ∧
      (masked []).config.wideLogic = .mask15 ∧ (Operand.lit 0).isReg = false ∧ (Operand.invalid 32776).isValue = false :=
  ⟨rfl, rfl, rfl, rfl, rfl, rfl, rfl⟩

theorem witness_NotFlipsLowFifteenBits :
    operandVal (machine []) (.lit 32767) = .ok 32767 ∧ (machine []).config.wideLogic = .full16 ∧ (32767 : Word).toNat < 32768 ∧
      operandVal (machine12 [] 32768 0) (.reg .r1) = .ok 32768 ∧ operandVal (masked []) (.lit 0) = .ok 0 ∧
      (masked []).config.wideLogic = .mask15 ∧ (Operand.lit 0).isReg = false ∧ (Operand.invalid 32776).isValue = false :=
  ⟨rfl, rfl, by decide, rfl, rfl, rfl, rfl, rfl⟩

theorem witness_JmpSetsIp :
    operandVal (machine12 [] 65535 0) (.reg .r1) = .ok 65535 ∧ (Operand.invalid 32776).isValue = false := ⟨rfl, rfl⟩

theorem witness_JtAndJfBranchOnZero :
    operandVal (machine12 [] 32768 0) (.reg .r1) = .ok 32768 ∧ operandVal (machine12 [] 32768 0) (.reg .r2) = .ok 0 ∧
      operandVal (machine12 [] 32768 0) (.lit 6) = .ok 6 ∧ (Operand.invalid 32776).isValue = false := ⟨rfl, rfl, rfl, rfl⟩

theorem witness_CallPushesReturnAddress :
    operandVal (capped [] 1 []) (.lit 6) = .ok 6 ∧ (capped [] 1 []).config.stackAllows ((capped [] 1 []).stack.length + 1) = true ∧
      (capped [] 0 []).config.stackAllows ((capped [] 0 []).stack.length + 1) = false ∧ (Operand.invalid 32776).isValue = false :=
  ⟨rfl, rfl, rfl, rfl⟩

theorem witness_RetPopsIp :
    ({ machine [18] with stack := [65535] } : State).stack = 65535 :: [] ∧ (machine [18]).stack = [] := ⟨rfl, rfl⟩

theorem witness_CallThenRetReturns :
    ∃ t, exec (.call (.lit 6)) (capped [17, 6] 1 []) = .next t ∧ t.runState ≠ .faulted := ⟨_, rfl, by decide⟩

theorem witness_RmemReadsWord :
    operandVal (machine []) (.lit 32767) = .ok 32767 ∧ (32767 : Word).toNat < (machine []).memSize ∧
      operandVal (machine12 [] 32768 0) (.reg .r1) = .ok 32768 ∧ (machine12 [] 32768 0).memSize ≤ (32768 : Word).toNat ∧
      (Operand.lit 0).isReg = false ∧ (Operand.invalid 32776).isValue = false :=
  ⟨rfl, by decide, rfl, by decide, rfl, rfl⟩

theorem witness_WmemWritesWord :
    operandVal (machine []) (.lit 32767) = .ok 32767 ∧ operandVal (machine []) (.lit 65) = .ok 65 ∧
      (32767 : Word).toNat < (machine []).memSize ∧ Memory.wf (machine []).mem = true ∧
      operandVal (machine12 [] 32768 0) (.reg .r1) = .ok 32768 ∧ (machine12 [] 32768 0).memSize ≤ (32768 : Word).toNat ∧
      (Operand.invalid 32776).isValue = false := ⟨rfl, rfl, by decide, by decide, rfl, by decide, rfl⟩

theorem witness_OutAppendsLowByte :
    operandVal (machine []) (.lit 256) = .ok 256 ∧ (Operand.invalid 32776).isValue = false := ⟨rfl, rfl⟩

theorem witness_InDeliversByteAndOverride_byte :
    let s := withInput [] [255] true
    s.inPhase = none ∧ s.input = 255 :: [] ∧ (255 : Byte) ≠ 124 := ⟨rfl, rfl, by decide⟩

theorem witness_InDeliversByteAndOverride_override :
    let ds : List Byte := [54, 53, 53, 51, 53]
    let s := withInput [] (124 :: ds ++ 124 :: 124 :: []) false
    s.inPhase = none ∧ ds ≠ [] ∧ ds.all isDigit = true ∧ decimalValue ds ≤ 65535 ∧ s.input = 124 :: ds ++ 124 :: 124 :: [] :=
  ⟨rfl, by decide, by decide, by decide, rfl⟩

theorem witness_InFaultsConsumeOnlyInput_ended :
    (withInput [] [] true).inPhase = none ∧ (withInput [] [] true).input = [] ∧ (withInput [] [] true).inputEnded = true :=
  ⟨rfl, rfl, rfl⟩

theorem witness_InFaultsConsumeOnlyInput_ended_inside :
    (([] : List Byte).all isDigit = true ∧ decimalValue [] ≤ 65535 ∧ (withInput [] [124] true).input = 124 :: [] ∧
        (withInput [] [124] true).inputEnded = true) ∧
      (([49, 50] : List Byte) ≠ [] ∧ ([49, 50] : List Byte).all isDigit = true ∧ decimalValue [49, 50] ≤ 65535 ∧
        (withInput [] [124, 49, 50, 124] true).input = 124 :: [49, 50] ++ [124]) :=
  ⟨⟨rfl, by decide, rfl, rfl⟩, by decide, by decide, by decide, rfl⟩

theorem witness_InFaultsConsumeOnlyInput_empty_number :
    (withInput [] [124, 124, 88] false).inPhase = none ∧ (withInput [] [124, 124, 88] false).input = 124 :: 124 :: [88] := ⟨rfl, rfl⟩

theorem witness_InFaultsConsumeOnlyInput_no_digit :
    ([49] : List Byte).all isDigit = true ∧ decimalValue [49] ≤ 65535 ∧
      (withInput [] [124, 49, 58] false).input = 124 :: [49] ++ 58 :: [] ∧ isDigit 58 = false ∧ (58 : Byte) ≠ 124 ∧
      isDigit 47 = false := ⟨by decide, by decide, rfl, by decide, by decide, by decide⟩

theorem witness_InFaultsConsumeOnlyInput_too_large :
    let ds : List Byte := [54, 53, 53, 51]
    ds.all isDigit = true ∧ decimalValue ds ≤ 65535 ∧ (withInput [] [124, 54, 53, 53, 51, 54] false).input = 124 :: ds ++ 54 :: [] ∧
      isDigit 54 = true ∧ 65535 < decimalValue (ds ++ [54]) ∧ (Operand.lit 5).isReg = false :=
  ⟨by decide, by decide, rfl, by decide, by decide, rfl⟩

theorem witness_InOverrideExample :
    (withInput [20, 32768] [124, 49, 50, 51, 52, 124, 88] false).inPhase = none ∧
      (withInput [20, 32768] [124, 49, 50, 51, 52, 124, 88] false).input = [124, 49, 50, 51, 52, 124, 88] := ⟨rfl, rfl⟩

theorem witness_InWaitsWithoutPolling :
    let s := { withInput [20, 32768] [124, 49, 124] false with cancel := true }
    s.runState = .running ∧ s.fetch = .ok (.inp (.reg .r0)) ∧ s.inputEnded = false ∧ s.inPhase = none ∧
      ([49] : List Byte).all isDigit = true ∧ decimalValue [49] ≤ 65535 ∧ ([49] : List Byte) ≠ [] ∧
      s.input = 124 :: [49] ++ [124] := ⟨rfl, rfl, rfl, rfl, by decide, by decide, by decide, rfl⟩

theorem witness_InWaitsWithoutPolling_nothing_answered :
    let s := { machine [20, 32768] with inPhase := some (.last 7) }
    s.runState = .running ∧ s.fetch = .ok (.inp (.reg .r0)) ∧ s.inputEnded = false ∧ s.input = [] := ⟨rfl, rfl, rfl, rfl⟩

theorem witness_InResumesAfterWait :
    ∃ t, exec (.inp (.reg .r0)) { machine [20, 32768] with input := [124, 49], inputEnded := false } = .next t ∧
      t.inPhase = some (.number (some 1)) := ⟨_, rfl, rfl⟩

theorem witness_FaultsArePrecise :
    let s := withInput [20, 32768] [124, 49, 50, 124] true
    s.runState = .running ∧ ∃ t, step s = .next t ∧ t.failed := ⟨rfl, _, rfl, rfl⟩

theorem witness_FaultRecord_opcode_fetch :
    let s := { machine [] with ip := 8 }
    s.runState = .running ∧ s.programSize ≤ s.memSize ∧ s.memSize ≤ 32768 ∧
      ∃ t, step s = .next t ∧ t.failed ∧ t.faultRecord.faultAccess = .opcodeFetch := ⟨rfl, by decide, by decide, _, rfl, rfl, rfl⟩

theorem witness_FaultRecord_operand_fetch :
    let s := { tight [21, 21, 21, 21, 21, 21, 21, 2] with ip := 7 }
    s.runState = .running ∧ s.programSize ≤ s.memSize ∧ s.memSize ≤ 32768 ∧
      ∃ t, step s = .next t ∧ t.failed ∧ t.faultRecord.faultAccess = .operandFetch := ⟨rfl, by decide, by decide, _, rfl, rfl, rfl⟩

theorem witness_FaultRecord_rmem :
    let s := tight [15, 32768, 8]
    s.runState = .running ∧ s.programSize ≤ s.memSize ∧ s.memSize ≤ 32768 ∧
      ∃ t, step s = .next t ∧ t.failed ∧ t.faultRecord.faultAccess = .rmemRead := ⟨rfl, by decide, by decide, _, rfl, rfl, rfl⟩

theorem witness_FaultRecord_wmem :
    let s := tight [16, 8, 1]
    s.runState = .running ∧ s.programSize ≤ s.memSize ∧ s.memSize ≤ 32768 ∧
      ∃ t, step s = .next t ∧ t.failed ∧ t.faultRecord.faultAccess = .wmemWrite := ⟨rfl, by decide, by decide, _, rfl, rfl, rfl⟩

theorem witness_FaultRecord_other :
    let s := machine [18]
    s.runState = .running ∧ s.programSize ≤ s.memSize ∧ s.memSize ≤ 32768 ∧
      ∃ t, step s = .next t ∧ t.failed ∧ t.faultRecord.faultCode = .stackUnderflow := ⟨rfl, by decide, by decide, _, rfl, rfl, rfl⟩

theorem witness_StatusWordFields :
    (machine []).runState = .running ∧ ({ machine [] with runState := .halted .halt } : State).runState = .halted .halt ∧
      ({ machine [] with runState := .halted .suspend } : State).runState = .halted .suspend ∧
      ({ machine [] with runState := .faulted } : State).runState = .faulted := ⟨rfl, rfl, rfl, rfl⟩

theorem witness_LoadPlacesImageLowByteFirst :
    ([0x15, 0, 0] : List Byte).length % 2 = 1 ∧
      (([0x15, 0, 0, 0] : List Byte).length % 2 = 0 ∧
        2 * ({ machine [] with config := { Config.default with memSize := 1 } } : State).config.memSize
          < ([0x15, 0, 0, 0] : List Byte).length) ∧
      (([0x15, 0, 0, 0] : List Byte).length % 2 = 0 ∧
        ([0x15, 0, 0, 0] : List Byte).length
          ≤ 2 * ({ machine [] with config := { Config.default with memSize := 2 } } : State).config.memSize) := by decide

/-- Four Words of memory, an image of two, and HEADROOM_INIT with one Word: of the two headroom addresses the first holds it and the last
holds 0 (log 6). -/
theorem witness_LoadPlacesImageLowByteFirst_headroom :
    let s := { machine [] with config := { Config.default with memSize := 4, headroomInit := [7] } }
    let image : List Byte := [0x15, 0, 0x34, 0x12]
    image.length % 2 = 0 ∧ image.length ≤ 2 * s.config.memSize ∧ ∃ t, s.load image = .ok t ∧
      1 < t.programSize ∧ Memory.read 1 t.mem = 0x1234 ∧
      (t.programSize ≤ 2 ∧ 2 < t.memSize ∧ Memory.read 2 t.mem = 7) ∧
      (t.programSize ≤ 3 ∧ 3 < t.memSize ∧ Memory.read 3 t.mem = 0) :=
  ⟨by decide, by decide, _, rfl, by decide, by decide, ⟨by decide, by decide, by decide⟩, by decide, by decide, by decide⟩

theorem witness_LoadResetsEveryField :
    let s := { machine [0] with runState := .faulted, cancel := true, stack := [1] }
    s.config = Config.default ∧ ∃ t, s.load [0x15, 0x00] = .ok t := ⟨rfl, _, rfl⟩

theorem witness_RestoreInstallsSnapshot : (machine [21]).snapshot.restorable (machine [21]).config = true := by decide

theorem witness_RestoreRefusesInvalidSnapshot :
    let x := (machine []).snapshot
    ({ x with regs := [0, 0, 0, 0, 0, 0, 0] } : Snapshot).regs.length ≠ 8 ∧
      ({ x with memSize := 7 } : Snapshot).memSize < ({ x with memSize := 7 } : Snapshot).programSize ∧
      32768 < ({ x with memSize := 32769 } : Snapshot).memSize ∧
      (capped [] 1 []).config.stackAllows ({ x with stack := [1, 2] } : Snapshot).stack.length = false := by decide

theorem witness_machine_Inv : (machine [2, 7]).Inv :=
  inv_of_parts _ (by decide) rfl (by decide) rfl rfl rfl

theorem witness_ResumedRunEqualsUninterruptedRun :
    (machine [2, 7]).Inv ∧ (machine [2, 7]).runState = .running ∧ (machine [2, 7]).inPhase = none :=
  ⟨witness_machine_Inv, rfl, rfl⟩

theorem witness_StepKeepsInvariant : (machine [2, 7]).Inv ∧ ∃ t, step (machine [2, 7]) = .next t ∧ t.stack = [7] :=
  ⟨witness_machine_Inv, _, rfl, rfl⟩

theorem witness_HostKeepsInvariant :
    (machine [2, 7]).Inv ∧ (∃ t, (machine [2, 7]).host .cancelRequest = .ok t) ∧
      (∃ t, (machine [2, 7]).host (.inputByte 255) = .ok t) ∧ (∃ t, (machine [2, 7]).host .endOfInput = .ok t) ∧
      (∃ t, (machine [2, 7]).host (.load [0x15, 0x00]) = .ok t) ∧
      ∃ t, (machine [2, 7]).host (.restore (machine [2, 7]).snapshot) = .ok t :=
  ⟨witness_machine_Inv, ⟨_, rfl⟩, ⟨_, rfl⟩, ⟨_, rfl⟩, ⟨_, rfl⟩, _, rfl⟩

theorem witness_StackChangesOnlyByFourInstructions : ∃ t, step (machine [17, 6]) = .next t ∧ t.stack = 2 :: (machine [17, 6]).stack :=
  ⟨_, rfl, rfl⟩

theorem witness_RegistersChangeOnlyAsDestination :
    ∃ t, step (withInput [20, 32768] [124, 49, 124, 88] false) = .next t ∧
      t.readReg .r7 ≠ (withInput [20, 32768] [124, 49, 124, 88] false).readReg .r7 := ⟨_, rfl, by decide⟩

theorem witness_MemoryChangesOnlyByWmem :
    Memory.wf (tight [16, 7, 65]).mem = true ∧ ∃ t, step (tight [16, 7, 65]) = .next t ∧
      Memory.read 7 t.mem ≠ Memory.read 7 (tight [16, 7, 65]).mem := ⟨by decide, _, rfl, by decide⟩

theorem witness_StepKeepsSizes : ∃ t, step (tight [16, 7, 65]) = .next t := ⟨_, rfl⟩

theorem witness_OutputGrowsOnlyByOut : ∃ t, step (machine [19, 321]) = .next t ∧ t.output ≠ (machine [19, 321]).output :=
  ⟨_, rfl, by decide⟩

theorem witness_RunningEndsOnlyByHaltSuspendOrFault :
    ((machine [0]).runState = .running ∧ ∃ t, step (machine [0]) = .next t ∧ t.quiescent) ∧
      (∃ t, step ({ machine [21] with cancel := true } : State) = .next t ∧ t.quiescent) ∧
      ∃ t, step (machine [22]) = .next t ∧ t.quiescent :=
  ⟨⟨rfl, _, rfl, by decide⟩, ⟨_, rfl, by decide⟩, _, rfl, by decide⟩

theorem witness_NextAddressNeverWraps :
    let s := { State.reset with mem := [(32764, 9), (32765, 32768)], programSize := 32768, ip := 32764 }
    s.programSize ≤ s.memSize ∧ s.memSize ≤ 32768 ∧ s.fetch = .ok (.add (.reg .r0) (.lit 0) (.lit 0)) :=
  ⟨by decide, by decide, rfl⟩

theorem witness_RegisterResultFrame :
    ∃ t, exec (.rmem (.reg .r3) (.lit 7)) (tight [15, 32771, 7]) = .next t ∧ ¬ t.failed := ⟨_, rfl, by decide⟩

theorem witness_StackFrame : ∃ t, exec (.call (.lit 6)) (capped [17, 6] 1 []) = .next t ∧ ¬ t.failed := ⟨_, rfl, by decide⟩

theorem witness_JumpFrame : ∃ t, exec (.jt (.lit 0) (.lit 6)) (machine [7, 0, 6]) = .next t ∧ ¬ t.failed := ⟨_, rfl, by decide⟩

theorem witness_StoreFrame :
    operandVal (tight [16, 7, 65]) (.lit 7) = .ok 7 ∧ ∃ t, exec (.wmem (.lit 7) (.lit 65)) (tight [16, 7, 65]) = .next t ∧ ¬ t.failed :=
  ⟨rfl, _, rfl, by decide⟩

theorem witness_StreamFrame :
    (∃ t, exec (.out (.lit 321)) (machine [19, 321]) = .next t ∧ ¬ t.failed) ∧
      ((withInput [20, 32768] [88] false).inPhase = none ∧ (withInput [20, 32768] [88] false).input.head? ≠ some 124 ∧
        ∃ t, exec (.inp (.reg .r0)) (withInput [20, 32768] [88] false) = .next t ∧ ¬ t.failed) :=
  ⟨⟨_, rfl, by decide⟩, rfl, by decide, _, rfl, by decide⟩

end Tests
end Sys2Proof
end

section
/-! PROOF. Every step keeps the invariant (O47): one lemma per way a step can end (a fault taken, a halt, a suspend, an instruction's
effect), put together by `step_cases`. In each `{ hI with … }` the fields not named are those of the state before, which the update left
alone. -/

namespace Sys2Proof
namespace Machine

/-! ### the fault record (R29, R206) -/

/-- The record of a raised fault is well-formed if its opcode is missing exactly when the opcode fetch failed. -/
theorem FaultRecord.wf_ofCause {c : Cause} {op : Option Word} (ip : Word)
    (hop : op = none ↔ ∃ a, c = .outOfBounds .opcodeFetch a) : (FaultRecord.ofCause c ip op).wf = true := by
  cases c with
  | outOfBounds acc a =>
    cases acc <;> cases op <;> simp [FaultRecord.wf, FaultRecord.ofCause, Cause.code] at hop ⊢
  | _ => cases op <;> simp [FaultRecord.wf, FaultRecord.ofCause, Cause.code] at hop ⊢

/-- A fault of the fetch comes without the opcode word exactly when it is the opcode fetch that failed (R82, R83). -/
theorem State.fetch_error_opcode {s : State} {c : Cause} {op : Option Word} (h : s.fetch = .error (c, op)) :
    op = none ↔ ∃ a, c = .outOfBounds .opcodeFetch a := by
  obtain ⟨⟨a, rfl⟩, rfl⟩ | ⟨w, rfl, rfl⟩ | ⟨a, w, rfl, rfl⟩ := State.fetch_error h <;> simp

/-! ### how a step ends -/

section
variable {s : State} {i : Instr}

/-- Taking a fault keeps the invariant (R205). -/
theorem State.Inv.raise (hI : s.Inv) {c : Cause} {op : Option Word}
    (hop : op = none ↔ ∃ a, c = .outOfBounds .opcodeFetch a) : (s.raise c op).Inv :=
  { hI with
    flagIsRunning := rfl
    recordClear := fun hne => absurd rfl hne
    recordSet := fun _ => FaultRecord.wf_ofCause s.ip hop
    phaseIsIn := fun hne => absurd rfl hne }

/-- A fault of an instruction, other than one of the fetch, keeps the invariant: its opcode word is recorded (R206). -/
theorem State.Inv.raise_opcode (hI : s.Inv) {c : Cause} (op : Word) (hc : ∀ a, c ≠ .outOfBounds .opcodeFetch a) :
    (s.raise c (some op)).Inv :=
  hI.raise (by simpa using hc)

/-- A Running machine that halts with no IN in progress keeps the invariant (R27, R28). -/
theorem State.Inv.halted (hI : s.Inv) (hr : s.runState = .running) (hp : s.inPhase = none) (cause : HaltCause) :
    State.Inv { s with runningFlag := false, runState := .halted cause } :=
  { hI with
    flagIsRunning := rfl
    recordClear := fun _ => hI.recordClear (by simp [hr])
    recordSet := fun h => by cases h
    phaseIsIn := fun hne => absurd hp hne }

/-- A suspend is a halt that hands out one more snapshot, and that one can be restored (R87, R216). -/
theorem State.Inv.suspend (hI : s.Inv) (hr : s.runState = .running) (hp : s.inPhase = none) : s.suspend.Inv :=
  { hI.halted hr hp .suspend with
    snapshotsValid := fun x hx => by
      obtain hx | hx := List.mem_append.1 hx
      · exact hI.snapshotsValid x hx
      · obtain rfl := List.mem_singleton.1 hx
        exact ⟨State.snapshot_restorable s hI, rfl⟩ }

/-- The polling point keeps the invariant (R87). -/
theorem State.Inv.poll (hI : s.Inv) : s.poll.Inv := by
  obtain ⟨hr, hp, -, h⟩ | ⟨-, h⟩ := State.poll_cases s
  · exact h ▸ hI.suspend hr hp
  · exact h.symm ▸ hI

/-! ### what an instruction does -/

/-- While an instruction other than an IN is fetched no IN is in progress (R170). -/
theorem State.Inv.inPhase_eq_none (hI : s.Inv) (hf : s.fetch = .ok i) (hi : ∀ d, i ≠ .inp (.reg d)) :
    s.inPhase = none := by
  by_contra hne
  obtain ⟨-, d, hd⟩ := hI.phaseIsIn hne
  exact hi d (Except.ok.inj (hf.symm.trans hd))

/-- The stack without its top entry is within `STACK_CAP` (R23, R25). -/
theorem State.Inv.stackFits_tail (hI : s.Inv) {v : Word} {rest : List Word} (hs : s.stack = v :: rest) :
    s.config.stackAllows rest.length = true :=
  Config.stackAllows_mono _ _ _ hI.stackFits (by simp [hs])

/-- The invariant says nothing of the input stream (R170). -/
theorem State.Inv.setInput (hI : s.Inv) (bytes : List Byte) : State.Inv { s with input := bytes } :=
  { hI with phaseIsIn := hI.phaseIsIn }

/-- Every effect of the instruction fetched by a Running machine keeps the invariant. -/
theorem Effect.keeps_inv {t : State} (hI : s.Inv) (hr : s.runState = .running) (hf : s.fetch = .ok i)
    (he : Effect i s t) : t.Inv := by
  have hidle : (∀ d, i ≠ .inp (.reg d)) → s.inPhase = none := hI.inPhase_eq_none hf
  cases he with
  | halt hi => exact hI.halted hr (hidle (by simp [hi])) .halt
  | ip v hi =>
    have hp := hidle (by rintro d rfl; simp at hi)
    exact { hI with phaseIsIn := fun hne => absurd hp hne }
  | register d v hi =>
    have hp := hidle (by rintro d rfl; simp at hi)
    exact { hI with phaseIsIn := fun hne => absurd hp hne }
  | push v ip' hroom hi =>
    have hp := hidle (by rintro d rfl; simp at hi)
    exact { hI with stackFits := hroom, phaseIsIn := fun hne => absurd hp hne }
  | pop d v rest hs hi =>
    have hp := hidle (by simp [hi])
    exact { hI with stackFits := hI.stackFits_tail hs, phaseIsIn := fun hne => absurd hp hne }
  | ret v rest hs hi =>
    have hp := hidle (by simp [hi])
    exact { hI with stackFits := hI.stackFits_tail hs, phaseIsIn := fun hne => absurd hp hne }
  | store a b addr v ha hb hin hi =>
    have hp := hidle (by simp [hi])
    exact { hI with
      memCanonical := Memory.wf_write _ v _ hI.memCanonical
      memInside := Memory.below_write _ _ v _ hI.memInside hin
      phaseIsIn := fun hne => absurd hp hne }
  | out b hi =>
    have hp := hidle (by rintro d rfl; simp at hi)
    exact { hI with phaseIsIn := fun hne => absurd hp hne }
  | delivered d c ov rest hi hp =>
    cases ov <;> exact { hI with phaseIsIn := fun hne => absurd rfl hne }
  | waits d p hi hp =>
    exact { hI with phaseIsIn := fun _ => ⟨hr, d, hi ▸ hf⟩ }
  | inputFault d rest c hi hp =>
    refine (hI.setInput rest).raise_opcode i.opcode ?_
    obtain ⟨-, -, rfl⟩ | ⟨-, rfl⟩ := hp <;> simp
  | fault c hc hacc =>
    refine hI.raise_opcode i.opcode fun a hca => ?_
    obtain ⟨h, -⟩ | ⟨h, -⟩ := hacc _ a hca <;> cases h

end

/-! ### the step -/

/-- Settles O47, by the three things a step can do: nothing, a fault of the fetch, or an instruction's effect and the polling point. -/
theorem stepKeepsInvariant : Obligations.StepKeepsInvariant := by
  intro s t hI h
  obtain ⟨-, rfl⟩ | ⟨-, c, op, hf, rfl⟩ | ⟨hr, i, u, hf, -, he, rfl⟩ := step_cases h
  · exact hI
  · exact hI.raise (State.fetch_error_opcode hf)
  · exact (he.keeps_inv hI hr hf).poll

end Machine
end Sys2Proof
end

section
/-! PROOF. What no instruction touches, and what touches each part of the state (O13, O49, O50, O52, O54 to O60): one lemma per part of
the state over `Effect`, so that a claim about a step or a family of instructions only names the parts it is about. -/

namespace Sys2Proof

/-! ### kinds of instructions and formats -/

/-- The instructions of the stack (R23). -/
def Instr.usesStack : Instr → Bool
  | .push _ | .pop _ | .call _ | .ret => true
  | _ => false

/-- Every instruction a format builds has the format's number of operands (R61). -/
def Format.countsOperands : Format → Prop
  | .f0 i => i.operands.length = 0
  | .f1 build => ∀ a, (build a).operands.length = 1
  | .f2 build => ∀ a b, (build a b).operands.length = 2
  | .f3 build => ∀ a b c, (build a b c).operands.length = 3

/-- So it is for every row of the opcode map (R67). -/
theorem opcodeRow_countsOperands {op : Word} {f : Format} (h : opcodeRow op = some f) : f.countsOperands := by
  unfold opcodeRow at h
  split at h <;> cases h <;> simp [Format.countsOperands, Instr.operands]

namespace Machine

/-! ### single updates -/

theorem State.raise_eq_faultedWith (s : State) (c : Cause) (op : Option Word) :
    s.raise c op = s.faultedWith (s.raise c op).faultRecord := rfl

@[simp] theorem State.poll_readReg (s : State) (r : Reg) : s.poll.readReg r = s.readReg r := by
  simp [State.readReg]

/-- The override writes r7 and no other register (R173). -/
theorem State.readReg_applyOverride_other (s : State) (ov : Option Word) {r : Reg} (h : r ≠ .r7) :
    (s.applyOverride ov).readReg r = s.readReg r := by
  cases ov with
  | none => rfl
  | some v => exact State.readReg_writeReg_other s .r7 r v h

/-! ### what an instruction leaves alone, part by part of the state -/

namespace Effect

variable {i : Instr} {s t : State}

/-- No instruction changes a parameter or a size (R8, R26). -/
theorem sameSizes (he : Effect i s t) : s.sameSizes t := by
  cases he <;> simp [State.sameSizes]

/-- No instruction changes the latch, or hands out a snapshot (R30, R87). -/
theorem sameLatch (he : Effect i s t) : s.sameLatch t := by
  cases he <;> simp [State.sameLatch]

/-- No instruction changes what end-of-input was answered (R170). -/
theorem inputEnded_eq (he : Effect i s t) : t.inputEnded = s.inputEnded := by
  cases he <;> simp

/-- Only IN reads input (R170). -/
theorem sameInput (he : Effect i s t) (hinp : ∀ a, i ≠ .inp a) : s.sameInput t := by
  cases he with
  | delivered d c ov rest hi hp => exact absurd hi (hinp _)
  | waits d p hi hp => exact absurd hi (hinp _)
  | inputFault d rest c hi hp => exact absurd hi (hinp _)
  | _ => exact ⟨rfl, rfl⟩

/-- Only OUT writes output (R171). -/
theorem output_eq (he : Effect i s t) (hout : ∀ a, i ≠ .out a) : t.output = s.output := by
  cases he with
  | out b hi => obtain ⟨a, hi⟩ := hi; exact absurd hi (hout a)
  | _ => simp

/-- Only WMEM writes memory, at the address of its first operand (R43, R47). -/
theorem sameMemoryBut (he : Effect i s t) {as : List Nat}
    (hw : ∀ a b addr, i = .wmem a b → operandVal s a = .ok addr → addr.toNat ∈ as) : s.sameMemoryBut t as := by
  intro x hx
  cases he with
  | store a b addr v ha hb hin hi =>
    exact Memory.read_write_other _ _ v _ fun hxa => hx (hxa ▸ hw a b addr hi ha)
  | _ => simp

/-- The stack changes by one top entry, pushed by PUSH or CALL or removed by POP or RET (R23 to R25). -/
theorem stack_cases (he : Effect i s t) :
    t.stack = s.stack ∨ ((∃ v, t.stack = v :: s.stack) ∧ ∃ a, i = .push a ∨ i = .call a) ∨
      ((∃ v, s.stack = v :: t.stack) ∧ ((∃ a, i = .pop a) ∨ i = .ret)) := by
  cases he with
  | push v ip' hroom hi => exact .inr (.inl ⟨⟨v, rfl⟩, exists_or.2 hi⟩)
  | pop d v rest hs hi => exact .inr (.inr ⟨⟨v, hs⟩, .inl ⟨_, hi⟩⟩)
  | ret v rest hs hi => exact .inr (.inr ⟨⟨v, hs⟩, .inr hi⟩)
  | _ => exact .inl (by simp)

/-- Only PUSH, POP, CALL and RET change the stack (R23). -/
theorem stack_eq (he : Effect i s t) (hi : i.usesStack = false) : t.stack = s.stack := by
  obtain hs | ⟨-, a, rfl | rfl⟩ | ⟨-, ⟨a, rfl⟩ | rfl⟩ := he.stack_cases
  · exact hs
  all_goals cases hi

/-- A register that is no destination, and not r7 in an IN, keeps its Word (R21, R174). -/
theorem readReg_eq (he : Effect i s t) {r : Reg} (hdst : destOperand i ≠ some (.reg r))
    (hinp : r = .r7 → ∀ a, i ≠ .inp a) : t.readReg r = s.readReg r := by
  have hne : ∀ d, destOperand i = some (.reg d) → r ≠ d := by
    rintro d hd rfl
    exact hdst hd
  cases he with
  | register d v hi =>
    have hd : destOperand i = some (.reg d) := by
      obtain ⟨_, rfl⟩ | ⟨_, _, rfl⟩ | ⟨_, _, rfl⟩ | ⟨_, _, rfl⟩ | ⟨_, _, rfl⟩ | ⟨_, _, rfl⟩ | ⟨_, _, rfl⟩ | ⟨_, _, rfl⟩ |
        ⟨_, rfl⟩ | ⟨_, rfl⟩ := hi <;> rfl
    exact State.readReg_writeReg_other s d r v (hne d hd)
  | pop d v rest hs hi =>
    exact State.readReg_writeReg_other { s with stack := rest } d r v (hne d (by rw [hi]; rfl))
  | delivered d c ov rest hi hp =>
    have h7 : r ≠ .r7 := fun h => hinp h _ hi
    calc
      _ = (s.applyOverride ov).readReg r := State.readReg_writeReg_other _ d r _ (hne d (by rw [hi]; rfl))
      _ = s.readReg r := State.readReg_applyOverride_other s ov h7
  | _ => rfl

theorem sameRegsBut (he : Effect i s t) {rs : List Reg} (hdst : ∀ r, destOperand i = some (.reg r) → r ∈ rs)
    (hinp : ∀ a, i = .inp a → .r7 ∈ rs) : s.sameRegsBut t rs := fun r hr =>
  he.readReg_eq (fun hd => hr (hdst r hd)) fun h7 a hi => hr (h7 ▸ hinp a hi)

/-- An instruction that ends the run is HALT, or took a fault (R27, R28). -/
theorem runState_cases (he : Effect i s t) :
    t.runState = s.runState ∨ (i = .halt ∧ t.runState = .halted .halt) ∨ t.runState = .faulted := by
  cases he with
  | halt hi => exact .inr (.inl ⟨hi, rfl⟩)
  | inputFault | fault => exact .inr (.inr rfl)
  | _ => exact .inl (by simp)

/-- An instruction other than HALT and IN takes a fault, or leaves the control state alone, and then one with a destination goes on to
the next address (R86, R205). -/
theorem faulted_or_completed (he : Effect i s t) (hhalt : i ≠ .halt) (hinp : ∀ a, i ≠ .inp a) :
    t = s.faultedWith t.faultRecord ∨ (s.sameControl t ∧ (destOperand i ≠ none → t.ip = s.nextIp i)) := by
  cases he with
  | halt hi => exact absurd hi hhalt
  | delivered d c ov rest hi hp => exact absurd hi (hinp _)
  | waits d p hi hp => exact absurd hi (hinp _)
  | inputFault d rest c hi hp => exact absurd hi (hinp _)
  | fault c hc hacc => exact .inl (State.raise_eq_faultedWith s c _)
  | ip v hi =>
    refine .inr ⟨⟨rfl, rfl, rfl, rfl⟩, fun hd => absurd ?_ hd⟩
    obtain rfl | ⟨_, rfl⟩ | ⟨_, _, rfl⟩ | ⟨_, _, rfl⟩ := hi <;> rfl
  | push v ip' hroom hi =>
    refine .inr ⟨⟨rfl, rfl, rfl, rfl⟩, fun hd => absurd ?_ hd⟩
    obtain ⟨_, rfl⟩ | ⟨_, rfl⟩ := hi <;> rfl
  | ret v rest hs hi => exact .inr ⟨⟨rfl, rfl, rfl, rfl⟩, fun hd => absurd (by rw [hi]; rfl) hd⟩
  | _ => exact .inr ⟨⟨rfl, rfl, rfl, rfl⟩, fun _ => rfl⟩

end Effect

/-! ### steps -/

/-- Settles O49, by the stack's part of `Effect`: a fault of the fetch and the polling point leave the stack alone. -/
theorem stackChangesOnlyByFourInstructions : Obligations.StackChangesOnlyByFourInstructions := by
  intro s t h
  obtain ⟨-, rfl⟩ | ⟨-, c, op, -, rfl⟩ | ⟨-, i, u, hf, -, he, rfl⟩ := step_cases h
  · exact .inl rfl
  · exact .inl rfl
  · simpa [hf] using he.stack_cases

/-- Settles O50, by the registers' part of `Effect`. -/
theorem registersChangeOnlyAsDestination : Obligations.RegistersChangeOnlyAsDestination := by
  intro s t r h hne
  obtain ⟨-, rfl⟩ | ⟨-, c, op, -, rfl⟩ | ⟨-, i, u, hf, -, he, rfl⟩ := step_cases h
  · exact absurd rfl hne
  · exact absurd rfl hne
  · refine ⟨i, hf, ?_⟩
    by_contra hno
    obtain ⟨hdst, hinp⟩ := not_or.1 hno
    exact hne ((State.poll_readReg u r).trans (he.readReg_eq hdst fun h7 a hi => hinp ⟨h7, a, hi⟩))

/-- Settles O52, by the sizes' part of `Effect`. -/
theorem stepKeepsSizes : Obligations.StepKeepsSizes := by
  intro s t h
  obtain ⟨-, rfl⟩ | ⟨-, c, op, -, rfl⟩ | ⟨-, i, u, -, -, he, rfl⟩ := step_cases h
  · exact ⟨rfl, rfl, rfl⟩
  · exact ⟨rfl, rfl, rfl⟩
  · simpa [State.sameSizes] using he.sameSizes

/-- Settles O54: the run ends at the fetch, in the instruction, or at the polling point after it. -/
theorem runningEndsOnlyByHaltSuspendOrFault : Obligations.RunningEndsOnlyByHaltSuspendOrFault := by
  intro s t hr h hq
  obtain ⟨hnr, -⟩ | ⟨-, c, op, -, rfl⟩ | ⟨-, i, u, hf, -, he, rfl⟩ := step_cases h
  · exact absurd hr hnr
  · exact .inr (.inr rfl)
  obtain ⟨-, -, hcancel, hp⟩ | ⟨-, hp⟩ := State.poll_cases u
  · obtain ⟨hlatch, -⟩ := he.sameLatch
    rw [hp]
    exact .inr (.inl ⟨rfl, hlatch ▸ hcancel, rfl⟩)
  · rw [hp] at hq ⊢
    obtain hsame | ⟨rfl, hhalt⟩ | hfault := he.runState_cases
    · exact absurd (hsame.trans hr) hq
    · exact .inl ⟨hhalt, hf⟩
    · exact .inr (.inr hfault)

/-! ### frames -/

/-- Settles O56, each conjunct by its part of `Effect`. -/
theorem registerResultFrame : Obligations.RegisterResultFrame := by
  intro d b c s t i hi h
  have he := exec_effect h
  have hinp : ∀ a, i ≠ .inp a := by rintro a rfl; simp at hi
  obtain ⟨hdst, hstack⟩ : destOperand i = some (.reg d) ∧ i.usesStack = false := by
    simp only [List.mem_cons, List.not_mem_nil, or_false] at hi
    obtain rfl | rfl | rfl | rfl | rfl | rfl | rfl | rfl | rfl | rfl := hi <;> exact ⟨rfl, rfl⟩
  obtain hfault | ⟨hcontrol, hip⟩ := he.faulted_or_completed (by rintro rfl; simp at hi) hinp
  · exact .inl hfault
  · exact .inr ⟨he.sameRegsBut (by simp [hdst]) fun a ha => absurd ha (hinp a), he.stack_eq hstack,
      he.sameMemoryBut (by rintro x y addr rfl; simp at hi), he.sameSizes, hcontrol, he.sameLatch, he.sameInput hinp,
      he.output_eq (by rintro x rfl; simp at hi), hip (by simp [hdst])⟩

/-- Settles O57: of the four, only POP has a destination. -/
theorem stackFrame : Obligations.StackFrame := by
  intro a s t i hi h
  have he := exec_effect h
  have hinp : ∀ x, i ≠ .inp x := by rintro x rfl; simp at hi
  obtain hfault | ⟨hcontrol, -⟩ := he.faulted_or_completed (by rintro rfl; simp at hi) hinp
  · exact .inl hfault
  · refine .inr ⟨fun r hne => ?_, he.sameMemoryBut (by rintro x y addr rfl; simp at hi), he.sameSizes, hcontrol,
      he.sameLatch, he.sameInput hinp, he.output_eq (by rintro x rfl; simp at hi)⟩
    by_contra hpop
    refine hne (he.readReg_eq (fun hd => ?_) fun _ => hinp)
    simp only [List.mem_cons, List.not_mem_nil, or_false] at hi
    obtain rfl | rfl | rfl | rfl := hi
    · cases hd
    · cases hd
      exact hpop rfl
    · cases hd
    · cases hd

/-- Settles O58, with no destination operand. -/
theorem jumpFrame : Obligations.JumpFrame := by
  intro a b s t i hi h
  have he := exec_effect h
  have hinp : ∀ x, i ≠ .inp x := by rintro x rfl; simp at hi
  obtain ⟨hdst, hstack⟩ : destOperand i = none ∧ i.usesStack = false := by
    simp only [List.mem_cons, List.not_mem_nil, or_false] at hi
    obtain rfl | rfl | rfl | rfl := hi <;> exact ⟨rfl, rfl⟩
  obtain hfault | ⟨hcontrol, -⟩ := he.faulted_or_completed (by rintro rfl; simp at hi) hinp
  · exact .inl hfault
  · exact .inr ⟨he.sameRegsBut (by simp [hdst]) fun x hx => absurd hx (hinp x), he.stack_eq hstack,
      he.sameMemoryBut (by rintro x y addr rfl; simp at hi), he.sameSizes, hcontrol, he.sameLatch, he.sameInput hinp,
      he.output_eq (by rintro x rfl; simp at hi)⟩

/-- Settles O59, by the memory's part of `Effect` at the address of the first operand. -/
theorem storeFrame : Obligations.StoreFrame := by
  intro a b s t h
  have he := exec_effect h
  obtain hfault | ⟨hcontrol, -⟩ := he.faulted_or_completed (by simp) (by simp)
  · exact .inl hfault
  · refine .inr ⟨fun addr ha => he.sameMemoryBut ?_, he.sameRegsBut (by simp [destOperand]) (by simp),
      he.stack_eq rfl, he.sameSizes, hcontrol, he.sameLatch, he.sameInput (by simp), he.output_eq (by simp)⟩
    rintro a' b' addr' hi ha'
    obtain ⟨rfl, rfl⟩ := Instr.wmem.inj hi
    obtain rfl := Except.ok.inj (ha.symm.trans ha')
    exact List.mem_singleton_self _

/-- A first byte that opens no override delivers without one (R173). -/
theorem inFirst_override_none {ended : Bool} {bs rest : List Byte} {c : Byte} {ov : Option Word}
    (h : inFirst ended bs = .delivered c ov rest) (hhead : bs.head? ≠ some delimiter) : ov = none := by
  cases bs with
  | nil => cases ended <;> cases h
  | cons d bs =>
    have hd : d ≠ delimiter := fun hd => hhead (congrArg some hd)
    rw [inFirst_plain ended d bs hd] at h
    exact (InResult.delivered.inj h).2.1.symm

/-- An IN takes a fault with some input consumed, or leaves the control state but the IN in progress alone (R170, R205). -/
theorem Effect.inp_cases {d : Reg} {s t : State} (he : Effect (.inp (.reg d)) s t) :
    t = { s with input := t.input }.faultedWith t.faultRecord ∨
      (t.runState = s.runState ∧ t.runningFlag = s.runningFlag ∧ t.faultRecord = s.faultRecord ∧
        (s.inPhase = none → s.input.head? ≠ some delimiter → s.sameRegsBut t [d])) := by
  cases he with
  | delivered d' c ov rest hi hp =>
    obtain ⟨⟩ := hi
    refine .inr ⟨by simp, by simp, by simp, fun hphase hhead r hr => ?_⟩
    rw [hphase] at hp
    obtain rfl := inFirst_override_none hp hhead
    exact State.readReg_writeReg_other s d r _ (by simpa using hr)
  | waits d' p hi hp => exact .inr ⟨rfl, rfl, rfl, fun _ _ _ _ => rfl⟩
  | inputFault d' rest c hi hp => exact .inl rfl
  | fault c hc hacc => exact .inl rfl
  | _ => simp at *

/-- Settles O60: OUT as every instruction without a destination, IN by `Effect.inp_cases`. -/
theorem streamFrame : Obligations.StreamFrame := by
  refine ⟨fun a s t h => ?_, fun d s t h => ?_⟩
  · have he := exec_effect h
    obtain hfault | ⟨hcontrol, -⟩ := he.faulted_or_completed (by simp) (by simp)
    · exact .inl hfault
    · exact .inr ⟨he.sameRegsBut (by simp [destOperand]) (by simp), he.stack_eq rfl, he.sameMemoryBut (by simp),
        he.sameSizes, hcontrol, he.sameLatch, he.sameInput (by simp)⟩
  · have he := exec_effect h
    obtain hfault | ⟨hrun, hflag, hrecord, hregs⟩ := he.inp_cases
    · exact .inl hfault
    · exact .inr ⟨he.sameRegsBut (by simp [destOperand]) (by simp), hregs, he.stack_eq rfl,
        he.sameMemoryBut (by simp), he.sameSizes, hrun, hflag, hrecord, he.sameLatch, he.output_eq (by simp),
        he.inputEnded_eq⟩

/-! ### the fetched instruction lies in memory -/

/-- A sequence that succeeds succeeds in both its parts. -/
theorem exists_of_bind_eq_ok {α β : Type} {x : Except Cause α} {f : α → Except Cause β} {y : β}
    (h : (x >>= f) = .ok y) : ∃ a, x = .ok a ∧ f a = .ok y := by
  cases x with
  | ok a => exact ⟨a, rfl, h⟩
  | error c => cases h

/-- An operand Word that is fetched is inside memory (R83). -/
theorem State.lt_of_fetchOperand_ok {s : State} {k : Nat} {o : Operand} (h : s.fetchOperand k = .ok o) :
    s.ip.toNat + k < s.memSize := by
  obtain ⟨hin, -⟩ | ⟨-, herr⟩ := State.fetchOperand_cases s k
  · exact hin
  · rw [herr] at h; cases h

/-- The operand Words of a fetched instruction are inside memory (R83). -/
theorem State.fetchOperands_ok_fits {s : State} {f : Format} {i : Instr} (hip : s.ip.toNat < s.memSize)
    (hf : f.countsOperands) (h : s.fetchOperands f = .ok i) : s.ip.toNat + i.operands.length < s.memSize := by
  cases f with
  | f0 j =>
    cases h
    exact hf ▸ hip
  | f1 build =>
    obtain ⟨a, ha, h⟩ := exists_of_bind_eq_ok h
    cases h
    exact hf a ▸ State.lt_of_fetchOperand_ok ha
  | f2 build =>
    obtain ⟨a, -, h⟩ := exists_of_bind_eq_ok h
    obtain ⟨b, hb, h⟩ := exists_of_bind_eq_ok h
    cases h
    exact hf a b ▸ State.lt_of_fetchOperand_ok hb
  | f3 build =>
    obtain ⟨a, -, h⟩ := exists_of_bind_eq_ok h
    obtain ⟨b, -, h⟩ := exists_of_bind_eq_ok h
    obtain ⟨c, hc, h⟩ := exists_of_bind_eq_ok h
    cases h
    exact hf a b c ▸ State.lt_of_fetchOperand_ok hc

/-- The instruction a fetch gives lies in memory up to its last Word (R82, R83). -/
theorem State.fetch_ok_fits {s : State} {i : Instr} (h : s.fetch = .ok i) : s.ip.toNat + i.length ≤ s.memSize := by
  unfold State.fetch at h
  split at h
  · cases h
  obtain ⟨hip, hm⟩ | ⟨-, hm⟩ := State.memRead_cases s .opcodeFetch s.ip.toNat
  · simp only [hm] at h
    cases hr : opcodeRow (Memory.read s.ip.toNat s.mem) with
    | none => simp [hr] at h
    | some f =>
      simp only [hr] at h
      cases hf : s.fetchOperands f with
      | error c => simp [hf] at h
      | ok j =>
        simp only [hf, Except.ok.injEq] at h
        subst h
        have := State.fetchOperands_ok_fits hip (opcodeRow_countsOperands hr) hf
        simp only [Instr.length]
        omega
  · simp [hm] at h

/-- Settles O55: the instruction's last Word is inside a memory of at most 32768 Words. -/
theorem nextAddressNeverWraps : Obligations.NextAddressNeverWraps := by
  intro s i _ hmem hf
  have hfits := State.fetch_ok_fits hf
  have hnext : (s.nextIp i).toNat = s.ip.toNat + i.length := by
    simp only [State.nextIp, BitVec.toNat_add, BitVec.toNat_ofNat]
    omega
  exact ⟨hnext, hnext ▸ hfits⟩

/-! ### the latch -/

/-- The state with the latch at `b`. -/
def State.withCancel (s : State) (b : Bool) : State := { s with cancel := b }

section
variable (s : State) (b : Bool)

theorem State.fetch_withCancel : (s.withCancel b).fetch = s.fetch := rfl

theorem operandVal_withCancel (o : Operand) : operandVal (s.withCancel b) o = operandVal s o := by
  cases o <;> rfl

theorem State.push_withCancel (v : Word) : (s.withCancel b).push v = (·.withCancel b) <$> s.push v := by
  obtain ⟨hroom, h⟩ | ⟨hroom, h⟩ := State.push_cases s v
  · rw [h]; exact if_pos hroom
  · rw [h]; exact if_neg (ne_true_of_eq_false hroom)

theorem State.pop_withCancel : (s.withCancel b).pop = (fun p => (p.1, p.2.withCancel b)) <$> s.pop := by
  simp only [State.pop, State.withCancel]
  cases s.stack <;> rfl

theorem State.memWrite_withCancel (a : Nat) (v : Word) :
    (s.withCancel b).memWrite a v = (·.withCancel b) <$> s.memWrite a v := by
  obtain ⟨hin, h⟩ | ⟨hout, h⟩ := State.memWrite_cases s a v
  · rw [h]; exact if_pos hin
  · rw [h]; exact if_neg (Nat.not_lt.2 hout)

variable {s b}

/-- If the meaning's result only differs in the latch, so does the state `EXEC` ends in (R205). -/
theorem complete_withCancel {i : Instr} {t : State} {r r' : Except Cause State} (h : complete i s r = .next t)
    (hr : r' = (·.withCancel b) <$> r) : complete i (s.withCancel b) r' = .next (t.withCancel b) := by
  subst hr
  obtain rfl | ⟨c, rfl, rfl⟩ := complete_cases h <;> rfl

theorem aluBinary_withCancel {i : Instr} {f : Word → Word → Except Cause Word} {a x y : Operand} {t : State}
    (h : aluBinary i f a x y s = .next t) : aluBinary i f a x y (s.withCancel b) = .next (t.withCancel b) :=
  complete_withCancel h (by simp only [operandVal_withCancel, map_bind, map_pure]; rfl)

theorem execInp_withCancel {a : Operand} {t : State} (h : execInp a s = .next t) :
    execInp a (s.withCancel b) = .next (t.withCancel b) := by
  have hp : inProtocol (s.withCancel b).inputEnded ((s.withCancel b).inPhase.getD .first) (s.withCancel b).input =
    inProtocol s.inputEnded (s.inPhase.getD .first) s.input := rfl
  unfold execInp at h ⊢
  rw [hp]
  cases hd : operandDst a with
  | error c =>
    simp only [hd] at h ⊢
    cases h
    rfl
  | ok d =>
    cases hr : inProtocol s.inputEnded (s.inPhase.getD .first) s.input with
    | delivered c ov rest =>
      simp only [hd, hr] at h ⊢
      cases h
      cases ov <;> rfl
    | exhausted | malformed rest | waits p =>
      simp only [hd, hr] at h ⊢
      cases h
      rfl

/-- Every instruction does the same with the latch at another value (R30). -/
theorem exec_withCancel {i : Instr} {t : State} (h : exec i s = .next t) :
    exec i (s.withCancel b) = .next (t.withCancel b) := by
  cases i with
  | halt | noop => cases h; rfl
  | eq | gt | add | mult | mod | and | or => exact aluBinary_withCancel h
  | inp a => exact execInp_withCancel h
  | jt | jf =>
    refine complete_withCancel h ?_
    simp only [operandVal_withCancel, map_bind, map_pure, apply_ite (State.withCancel · b)]
    rfl
  | push | call =>
    refine complete_withCancel h ?_
    simp only [operandVal_withCancel, State.push_withCancel, map_bind, map_pure, bind_map_left]
    rfl
  | pop | ret =>
    refine complete_withCancel h ?_
    simp only [State.pop_withCancel, map_bind, map_pure, bind_map_left]
    rfl
  | wmem =>
    refine complete_withCancel h ?_
    simp only [operandVal_withCancel, State.memWrite_withCancel, map_bind, map_pure, bind_map_left]
    rfl
  | set | not | rmem | jmp | out =>
    refine complete_withCancel h ?_
    simp only [operandVal_withCancel, map_bind, map_pure]
    rfl

end

/-- Settles O13, by `exec_withCancel`. -/
theorem cancelLatchInvisibleToPrograms : Obligations.CancelLatchInvisibleToPrograms := fun s b =>
  ⟨State.fetch_withCancel s b, fun _ _ h => ⟨(exec_effect h).sameLatch.1, exec_withCancel h⟩⟩

end Machine
end Sys2Proof
end

section
/-! PROOF. What a step can do to memory (O51): a WMEM's write at its address, or nothing. -/

namespace Sys2Proof
namespace Machine

/-- An instruction leaves memory alone, or is a WMEM that wrote its value at its address, inside memory (R43, R162). -/
theorem Effect.mem_cases {i : Instr} {s t : State} (he : Effect i s t) :
    t.mem = s.mem ∨ ∃ a b addr v, i = .wmem a b ∧ operandVal s a = .ok addr ∧ operandVal s b = .ok v ∧
      addr.toNat < s.memSize ∧ t.mem = Memory.write addr.toNat v s.mem := by
  cases he with
  | store a b addr v ha hb hin hi => exact .inr ⟨a, b, addr, v, hi, ha, hb, hin, rfl⟩
  | _ => exact .inl (by simp)

/-- An address whose Word a write changes is the one written (R47). -/
theorem Memory.eq_of_read_write_ne {a x : Nat} {v : Word} {m : Memory}
    (h : Memory.read x (Memory.write a v m) ≠ Memory.read x m) : a = x := by
  by_contra hne
  exact h (Memory.read_write_other a x v m (Ne.symm hne))

/-- Settles O51, by the memory's part of `Effect`: a fault of the fetch and the polling point leave memory alone, and the Word a WMEM
wrote reads back because the memory is canonical. -/
theorem memoryChangesOnlyByWmem : Obligations.MemoryChangesOnlyByWmem := by
  intro s t x hwf h hne
  obtain ⟨-, rfl⟩ | ⟨-, c, op, -, rfl⟩ | ⟨-, i, u, hf, -, he, rfl⟩ := step_cases h
  · exact absurd rfl hne
  · exact absurd rfl hne
  rw [State.poll_mem] at hne ⊢
  obtain hmem | ⟨a, b, addr, v, rfl, ha, hb, hin, hmem⟩ := he.mem_cases
  · exact absurd (congrArg (Memory.read x) hmem) hne
  · rw [hmem] at hne ⊢
    obtain rfl := Memory.eq_of_read_write_ne hne
    exact ⟨hin, a, b, addr, hf, ha, rfl, by rw [Memory.read_write_same _ _ _ hwf, hb]⟩

end Machine
end Sys2Proof
end

section
/-! PROOF. The encoding (O1 to O5): the decoder characterised once by `decode_eq_ok_iff`, from which both directions of the round trip
follow, and the value and the destination an operand Word has by its class. -/

namespace Sys2Proof

/-! ### what a format builds, and the opcode map's rows -/

/-- The format takes exactly these operands, in this order, and builds this instruction of them (R60, R61). -/
inductive Format.Builds : Format → List Operand → Instr → Prop where
  | f0 (i : Instr) : Builds (.f0 i) [] i
  | f1 (build : Operand → Instr) (a : Operand) : Builds (.f1 build) [a] (build a)
  | f2 (build : Operand → Operand → Instr) (a b : Operand) : Builds (.f2 build) [a, b] (build a b)
  | f3 (build : Operand → Operand → Operand → Instr) (a b c : Operand) : Builds (.f3 build) [a, b, c] (build a b c)

/-- What a format decodes is built from the operands of its leading words; the words after them are the rest. -/
theorem Format.builds_of_decode {f : Format} {ws rest : List Word} {i : Instr} (h : f.decode ws = .ok (i, rest)) :
    ∃ os, f.Builds (os.map Operand.decode) i ∧ ws = os ++ rest := by
  unfold Format.decode at h
  split at h <;> cases h
  · exact ⟨[], .f0 i, rfl⟩
  next build a => exact ⟨[a], .f1 build _, rfl⟩
  next build a b => exact ⟨[a, b], .f2 build _ _, rfl⟩
  next build a b c => exact ⟨[a, b, c], .f3 build _ _ _, rfl⟩

/-- A format decodes the words of the operands it builds an instruction from to that instruction, and leaves what follows. -/
theorem Format.decode_of_builds {f : Format} {os rest : List Word} {i : Instr} (h : f.Builds (os.map Operand.decode) i) :
    f.decode (os ++ rest) = .ok (i, rest) := by
  generalize hl : os.map Operand.decode = l at h
  cases h with
  | f0 =>
    obtain rfl := List.map_eq_nil_iff.mp hl
    rfl
  | f1 build a =>
    obtain ⟨x, rfl, rfl⟩ := List.map_eq_singleton_iff.mp hl
    rfl
  | f2 build a b =>
    obtain ⟨x, _, rfl, rfl, hb⟩ := List.map_eq_cons_iff.mp hl
    obtain ⟨y, rfl, rfl⟩ := List.map_eq_singleton_iff.mp hb
    rfl
  | f3 build a b c =>
    obtain ⟨x, _, rfl, rfl, hbc⟩ := List.map_eq_cons_iff.mp hl
    obtain ⟨y, _, rfl, rfl, hc⟩ := List.map_eq_cons_iff.mp hbc
    obtain ⟨z, rfl, rfl⟩ := List.map_eq_singleton_iff.mp hc
    rfl

/-- A row of the opcode map builds the instructions with its opcode, of all their operands (R66, R67). -/
theorem opcodeRow_builds {op : Word} {f : Format} {os : List Operand} {i : Instr} (hrow : opcodeRow op = some f)
    (hb : f.Builds os i) : op = i.opcode ∧ os = i.operands := by
  unfold opcodeRow at hrow
  split at hrow <;> cases hrow
  all_goals
    cases hb
    exact ⟨BitVec.eq_of_toNat_eq ‹_›, rfl⟩

/-- Every instruction is built of its operands by the row of its opcode (R66, R67). -/
theorem exists_opcodeRow_builds (i : Instr) : ∃ f, opcodeRow i.opcode = some f ∧ f.Builds i.operands i := by
  cases i <;> exact ⟨_, rfl, by constructor⟩

/-! ### the decoder -/

/-- A sequence that starts with an opcode of the map decodes as the row's format says (R60). -/
theorem decode_cons_of_opcodeRow {op : Word} {f : Format} (h : opcodeRow op = some f) (ws : List Word) :
    decode (op :: ws) = f.decode ws := by
  simp [decode, h]

/-- What decodes starts with an opcode of the map, and the row's format decodes the words after it (R60, R69). -/
theorem opcodeRow_of_decode {ws : List Word} {r : Instr × List Word} (h : decode ws = .ok r) :
    ∃ op tail f, ws = op :: tail ∧ opcodeRow op = some f ∧ f.decode tail = .ok r := by
  cases ws with
  | nil => cases h
  | cons op tail =>
    cases hrow : opcodeRow op with
    | none => simp [decode, hrow] at h
    | some f => exact ⟨op, tail, f, rfl, hrow, by rwa [decode_cons_of_opcodeRow hrow] at h⟩

/-- The words that decode to an instruction are its opcode word and then words of the classes of its operands, with the rest after them
(R60 to R62, R67, R68). -/
theorem decode_eq_ok_iff {ws rest : List Word} {i : Instr} :
    decode ws = .ok (i, rest) ↔ ∃ os, os.map Operand.decode = i.operands ∧ ws = i.opcode :: os ++ rest := by
  constructor
  · intro h
    obtain ⟨op, tail, f, rfl, hrow, hf⟩ := opcodeRow_of_decode h
    obtain ⟨os, hb, rfl⟩ := Format.builds_of_decode hf
    obtain ⟨rfl, hos⟩ := opcodeRow_builds hrow hb
    exact ⟨os, hos, rfl⟩
  · rintro ⟨os, hos, rfl⟩
    obtain ⟨f, hrow, hb⟩ := exists_opcodeRow_builds i
    rw [List.cons_append, decode_cons_of_opcodeRow hrow]
    exact Format.decode_of_builds (hos ▸ hb)

/-! ### the round trip -/

/-- An instruction is well-formed when all its operands are. -/
theorem Instr.wf_iff (i : Instr) : i.wf = true ↔ ∀ o ∈ i.operands, o.wf = true := by
  cases i <;> simp [Instr.wf, Instr.operands, and_assoc]

/-- Settles O1, by `decode_eq_ok_iff`: the operand words of the encoding decode to the operands, each of which is well-formed. -/
theorem decodeInvertsEncode : Obligations.DecodeInvertsEncode := by
  intro i rest hwf
  have hops : (i.operands.map Operand.encode).map Operand.decode = i.operands := by
    rw [List.map_map]
    exact (List.map_congr_left fun o ho => Operand.decode_encode o (i.wf_iff.mp hwf o ho)).trans (List.map_id _)
  exact decode_eq_ok_iff.mpr ⟨i.operands.map Operand.encode, hops, rfl⟩

/-- Settles O2, by `decode_eq_ok_iff`: each operand of what was decoded is the class of a word, so it is well-formed and encodes to that
word. -/
theorem encodeInvertsDecode : Obligations.EncodeInvertsDecode := by
  intro ws i rest h
  obtain ⟨os, hos, rfl⟩ := decode_eq_ok_iff.mp h
  constructor
  · rw [Instr.wf_iff, ← hos]
    simp [Operand.wf_decode]
  · have henc : i.operands.map Operand.encode = os := by
      rw [← hos, List.map_map]
      exact List.map_id'' Operand.encode_decode os
    rw [encode, henc]

/-- Settles O3, by running the decoder on each row of the table and on the bytes. -/
theorem encodingExamplesOfTheSpec : Obligations.EncodingExamplesOfTheSpec :=
  ⟨rfl, rfl, rfl, rfl, rfl, rfl, rfl, rfl, rfl, rfl, rfl⟩

/-! ### operand words by class -/

/-- A word from 32768 to 32775 is the register numbered by its distance from 32768 (R62). -/
theorem Operand.exists_decode_eq_reg {w : Word} (h : 32768 ≤ w.toNat) (h' : w.toNat < 32776) :
    ∃ r : Reg, r.index.toNat = w.toNat - 32768 ∧ Operand.decode w = .reg r := by
  refine ⟨_, ?_, Operand.decode_reg w h h'⟩
  rw [Reg.index_ofBits, BitVec.toNat_setWidth, BitVec.toNat_setWidth]
  omega

namespace Machine

/-- Settles O4, by the three classes of an operand word. -/
theorem operandValueByWordClass : Obligations.OperandValueByWordClass := by
  intro s w
  refine ⟨fun hlit => ?_, fun hlo hhi => ?_, fun hinv => ?_⟩
  · have henc := Operand.encode_decode w
    rw [Operand.decode_lit w hlit] at henc ⊢
    exact congrArg Except.ok henc
  · obtain ⟨r, hr, hdec⟩ := Operand.exists_decode_eq_reg hlo hhi
    exact ⟨r, hr, by rw [hdec, operandVal_reg]⟩
  · rw [Operand.decode_invalid w hinv, operandVal_invalid]

/-- Settles O5, by the three classes of an operand word. -/
theorem destinationByWordClass : Obligations.DestinationByWordClass := by
  intro w
  refine ⟨fun hlo hhi => ?_, ?_⟩
  · obtain ⟨r, hr, hdec⟩ := Operand.exists_decode_eq_reg hlo hhi
    exact ⟨r, hr, by rw [hdec, operandDst_reg]⟩
  · rintro (hlit | hinv)
    · rw [Operand.decode_lit w hlit, operandDst_lit]
    · rw [Operand.decode_invalid w hinv, operandDst_invalid]

end Machine
end Sys2Proof
end

section
/-! PROOF. The step (O7 to O12): what a fetch answers in each case of R82 and R83, stated as equations, that every instruction answers a
next state, and what the polling point makes of it. -/

namespace Sys2Proof
namespace Machine

/-! ### the opcode fetch (R82) -/

section
variable {s : State}

/-- `MemRead` inside memory gives the Word (R42). -/
theorem State.memRead_of_lt {a : Nat} (acc : Access) (h : a < s.memSize) :
    s.memRead acc a = .ok (Memory.read a s.mem) :=
  if_pos h

/-- No opcode is fetched at or past PROGRAM_SIZE (R82). -/
theorem State.fetch_of_programSize_le (hip : s.programSize ≤ s.ip.toNat) :
    s.fetch = .error (.outOfBounds .opcodeFetch s.ip, none) := by
  simp [State.fetch, hip]

/-- A Word that is no opcode stops the fetch, and no operand Word is fetched (R69, R82). -/
theorem State.fetch_of_opcodeRow_eq_none (hip : s.ip.toNat < s.programSize) (hfit : s.programSize ≤ s.memSize)
    (hrow : opcodeRow (Memory.read s.ip.toNat s.mem) = none) :
    s.fetch = .error (.invalidOpcode, some (Memory.read s.ip.toNat s.mem)) := by
  have hread := State.memRead_of_lt .opcodeFetch (hip.trans_le hfit)
  simp [State.fetch, Nat.not_le.2 hip, hread, hrow]

/-- After a legal opcode the fetch is that of its operand Words, and a fault of it has the opcode word to record (R82, R83). -/
theorem State.fetch_of_opcodeRow_eq_some {f : Format} (hip : s.ip.toNat < s.programSize)
    (hfit : s.programSize ≤ s.memSize) (hrow : opcodeRow (Memory.read s.ip.toNat s.mem) = some f) :
    s.fetch = (s.fetchOperands f).mapError (·, some (Memory.read s.ip.toNat s.mem)) := by
  have hread := State.memRead_of_lt .opcodeFetch (hip.trans_le hfit)
  cases hf : s.fetchOperands f <;> simp [State.fetch, Nat.not_le.2 hip, hread, hrow, hf, Except.mapError]

/-! ### the operand fetch (R83) -/

/-- An operand Word inside memory is fetched. -/
theorem State.fetchOperand_of_lt {k : Nat} (h : s.ip.toNat + k < s.memSize) :
    s.fetchOperand k = .ok (.decode (Memory.read (s.ip.toNat + k) s.mem)) :=
  ((s.fetchOperand_cases k).resolve_right fun hout => Nat.not_le.2 h hout.1).2

/-- An operand Word outside memory is OutOfBounds. -/
theorem State.fetchOperand_of_le {k : Nat} (h : s.memSize ≤ s.ip.toNat + k) :
    s.fetchOperand k = .error (.outOfBounds .operandFetch (BitVec.ofNat 16 (s.ip.toNat + k))) :=
  ((s.fetchOperand_cases k).resolve_left fun hin => Nat.not_lt.2 h hin.1).2

/-- The operand fetch stops at the first operand Word outside memory (R83). -/
theorem State.fetchOperands_of_first_outside {f : Format} {k : Nat} (hk : 1 ≤ k) (hkf : k ≤ f.operandCount)
    (hin : ∀ j, j < k → s.ip.toNat + j < s.memSize) (hout : s.memSize ≤ s.ip.toNat + k) :
    s.fetchOperands f = .error (.outOfBounds .operandFetch (BitVec.ofNat 16 (s.ip.toNat + k))) := by
  have hbefore : ∀ j, j < k → ∃ o, s.fetchOperand j = .ok o := fun j hj => ⟨_, State.fetchOperand_of_lt (hin j hj)⟩
  have hstop := State.fetchOperand_of_le hout
  cases f with
  | f0 i => exact absurd (hk.trans hkf) (Nat.not_succ_le_zero 0)
  | f1 build =>
    obtain rfl : k = 1 := Nat.le_antisymm hkf hk
    simp [State.fetchOperands, hstop]
  | f2 build =>
    obtain rfl | rfl : k = 1 ∨ k = 2 := by simp only [Format.operandCount] at hkf; omega
    · simp [State.fetchOperands, hstop]
    · obtain ⟨a, ha⟩ := hbefore 1 (by decide)
      simp [State.fetchOperands, ha, hstop]
  | f3 build =>
    obtain rfl | rfl | rfl : k = 1 ∨ k = 2 ∨ k = 3 := by simp only [Format.operandCount] at hkf; omega
    · simp [State.fetchOperands, hstop]
    · obtain ⟨a, ha⟩ := hbefore 1 (by decide)
      simp [State.fetchOperands, ha, hstop]
    · obtain ⟨a, ha⟩ := hbefore 1 (by decide)
      obtain ⟨b, hb⟩ := hbefore 2 (by decide)
      simp [State.fetchOperands, ha, hb, hstop]

/-- So the fetch faults OutOfBounds at that Word, with the opcode word in the record (R83, R206). -/
theorem State.fetch_of_first_outside {f : Format} {k : Nat} (hip : s.ip.toNat < s.programSize)
    (hfit : s.programSize ≤ s.memSize) (hrow : opcodeRow (Memory.read s.ip.toNat s.mem) = some f) (hk : 1 ≤ k)
    (hkf : k ≤ f.operandCount) (hin : ∀ j, j < k → s.ip.toNat + j < s.memSize) (hout : s.memSize ≤ s.ip.toNat + k) :
    s.fetch = .error (.outOfBounds .operandFetch (BitVec.ofNat 16 (s.ip.toNat + k)),
      some (Memory.read s.ip.toNat s.mem)) := by
  rw [State.fetch_of_opcodeRow_eq_some hip hfit hrow, State.fetchOperands_of_first_outside hk hkf hin hout]
  rfl

/-- The operand fetch gives the instruction the format builds from the operands fetched in turn (R61, R83). -/
theorem State.fetchOperands_of_builds {f : Format} {os : List Operand} {i : Instr} (hb : f.Builds os i)
    (hos : ∀ k (hk : k < os.length), s.fetchOperand (k + 1) = .ok os[k]) : s.fetchOperands f = .ok i := by
  cases hb with
  | f0 => rfl
  | f1 build a =>
    have ha : s.fetchOperand 1 = .ok a := hos 0 (by simp)
    simp [State.fetchOperands, ha]
  | f2 build a b =>
    have ha : s.fetchOperand 1 = .ok a := hos 0 (by simp)
    have hb : s.fetchOperand 2 = .ok b := hos 1 (by simp)
    simp [State.fetchOperands, ha, hb]
  | f3 build a b c =>
    have ha : s.fetchOperand 1 = .ok a := hos 0 (by simp)
    have hb : s.fetchOperand 2 = .ok b := hos 1 (by simp)
    have hc : s.fetchOperand 3 = .ok c := hos 2 (by simp)
    simp [State.fetchOperands, ha, hb, hc]

/-! ### the fetch and the decoder -/

/-- A sequence of Words read from the IP on that is the Words of an instruction and more holds the opcode at the IP and the operand Words
at the addresses after it. -/
theorem State.reads_of_words_eq {n : Nat} {op : Word} {os rest : List Word}
    (h : ((List.range n).map fun k => Memory.read (s.ip.toNat + k) s.mem) = op :: os ++ rest) :
    Memory.read s.ip.toNat s.mem = op ∧
      ∀ k (hk : k < os.length), Memory.read (s.ip.toNat + (k + 1)) s.mem = os[k] := by
  have hlen : n = os.length + rest.length + 1 := by simpa using congrArg List.length h
  have hget : ∀ j, j < n → some (Memory.read (s.ip.toNat + j) s.mem) = (op :: os ++ rest)[j]? := fun j hj => by
    simp [← h, hj]
  refine ⟨?_, fun k hk => ?_⟩
  · simpa using hget 0 (by omega)
  · simpa [List.getElem?_append_left hk, hk] using hget (k + 1) (by omega)

/-- The fetch gives the instruction the Words at the IP decode to, if it is in memory and starts in the program (R82, R83). -/
theorem State.fetch_of_decode {n : Nat} {i : Instr} {rest : List Word} (hip : s.ip.toNat < s.programSize)
    (hfit : s.programSize ≤ s.memSize) (hlast : s.ip.toNat + i.length ≤ s.memSize)
    (hdec : decode ((List.range n).map fun k => Memory.read (s.ip.toNat + k) s.mem) = .ok (i, rest)) :
    s.fetch = .ok i := by
  obtain ⟨os, hos, hws⟩ := decode_eq_ok_iff.mp hdec
  obtain ⟨hop, hreads⟩ := State.reads_of_words_eq hws
  obtain ⟨f, hrow, hb⟩ := exists_opcodeRow_builds i
  have hoperands : s.fetchOperands f = .ok i := by
    refine State.fetchOperands_of_builds hb fun k hk => ?_
    have hin : s.ip.toNat + (k + 1) < s.memSize := by simp only [Instr.length] at hlast; omega
    rw [State.fetchOperand_of_lt hin]
    simp only [← hos, List.length_map] at hk ⊢
    rw [hreads k hk, List.getElem_map]
  rw [State.fetch_of_opcodeRow_eq_some hip hfit (hop ▸ hrow), hoperands]
  rfl

end

/-! ### what the step answers -/

/-- IN answers a next state, also while it waits and when it faults (R170, R173). -/
theorem execInp_next (a : Operand) (s : State) : ∃ t, execInp a s = .next t := by
  unfold execInp
  split
  · exact ⟨_, rfl⟩
  · split <;> exact ⟨_, rfl⟩

/-- Every instruction answers a next state: HALT and NOOP at once, IN in every phase, the others by `complete`. -/
theorem exec_next (i : Instr) (s : State) : ∃ t, exec i s = .next t := by
  cases i with
  | halt | noop => exact ⟨_, rfl⟩
  | inp a => exact execInp_next a s
  | _ => exact complete_next _ s _

section
variable {s t : State} {i : Instr}

/-- A Running machine goes where the fetched instruction takes it, and polls there (R87, R89). -/
theorem step_of_exec (hr : s.runState = .running) (hf : s.fetch = .ok i) (he : exec i s = .next t) :
    step s = .next t.poll := by
  rw [step_of_fetch hr hf, he]

/-- The polling point suspends a Running machine with no IN in progress whose latch is set (R87). -/
theorem State.poll_of_requested (hr : s.runState = .running) (hp : s.inPhase = none) (hc : s.cancel = true) :
    s.poll = s.suspend :=
  if_pos ⟨hr, hp, hc⟩

/-- Nothing happens at the polling point of a machine that stopped, whose IN waits, or whose latch is clear (R87, R170). -/
theorem State.poll_of_not_requested (h : s.runState ≠ .running ∨ s.inPhase ≠ none ∨ s.cancel = false) : s.poll = s :=
  if_neg (by rintro ⟨hr, hp, hc⟩; simp [hr, hp, hc] at h)

end

/-! ### the obligations -/

/-- Settles O7, by the two equations of the opcode fetch. -/
theorem opcodeFetchFaults : Obligations.OpcodeFetchFaults := by
  intro s hr hfit
  refine ⟨fun hpast => ?_, fun hip hop => ?_⟩
  · exact step_of_fetch_error hr (State.fetch_of_programSize_le hpast)
  · exact step_of_fetch_error hr (State.fetch_of_opcodeRow_eq_none hip hfit (opcodeRow_none _ hop))

/-- Settles O8, by the fetch of operand Words, which stops at the first one outside memory. -/
theorem operandFetchOutsideMemoryFaults : Obligations.OperandFetchOutsideMemoryFaults :=
  fun _ _ _ hr hfit hip hrow hk hkf hin hout =>
    step_of_fetch_error hr (State.fetch_of_first_outside hip hfit hrow hk hkf hin hout)

/-- Settles O9, by `State.fetch_of_decode`. -/
theorem stepRunsDecodedInstruction : Obligations.StepRunsDecodedInstruction :=
  fun _ _ _ hr hip hfit hlast hdec => step_of_fetch hr (State.fetch_of_decode hip hfit hlast hdec)

/-- Settles O11, by the step's equation for a machine that is not Running. -/
theorem quiescentMachineStays : Obligations.QuiescentMachineStays := fun _ h => step_of_not_running h

/-- Settles O10: a stopped machine answers itself, a fetch that fails a fault taken, and an instruction what `exec_next` gives, polled. -/
theorem everyInstructionAndStepAnswersNext : Obligations.EveryInstructionAndStepAnswersNext := by
  refine ⟨exec_next, fun s => ?_⟩
  by_cases hr : s.runState = .running
  · cases hf : s.fetch with
    | error e => exact ⟨_, step_of_fetch_error hr hf⟩
    | ok i =>
      obtain ⟨t, he⟩ := exec_next i s
      exact ⟨_, step_of_exec hr hf he⟩
  · exact ⟨_, step_of_not_running hr⟩

/-- Settles O12, by the two equations of the polling point; a fault of the fetch is taken with no polling point after it. -/
theorem pollingPointSuspends : Obligations.PollingPointSuspends := by
  intro s hr
  refine ⟨fun i t hf he => ⟨fun htr htp htc => ?_, fun hno => ?_⟩, fun c op hf => ?_⟩
  · rw [step_of_exec hr hf he, State.poll_of_requested htr htp htc]
    rfl
  · rw [step_of_exec hr hf he, State.poll_of_not_requested hno]
  · exact ⟨_, step_of_fetch_error hr hf⟩

end Machine
end Sys2Proof
end

section
/-! PROOF. System instructions (O14): what HALT and NOOP answer, each as an equation with its whole frame. -/

namespace Sys2Proof
namespace Machine

/-- Going on to the next address changes the IP alone (R86). -/
theorem State.advance_eq (s : State) (i : Instr) : s.advance i = { s with ip := s.nextIp i } := rfl

/-- NOOP is one Word long (R60, R101). -/
theorem State.nextIp_noop (s : State) : s.nextIp .noop = s.ip + 1 := rfl

/-- HALT stops the machine at itself, whatever the state (R100). -/
theorem exec_halt (s : State) :
    exec .halt s = .next { s with runningFlag := false, runState := .halted .halt } := rfl

/-- NOOP goes on to the next address, whatever the state (R101). -/
theorem exec_noop (s : State) : exec .noop s = .next (s.advance .noop) := rfl

/-- Settles O14, by the equations of the two instructions: only the IP changes when NOOP advances, and its next address is one Word on. -/
theorem haltStopsAndNoopAdvances : Obligations.HaltStopsAndNoopAdvances := by
  intro s
  refine ⟨exec_halt s, ?_⟩
  rw [exec_noop, State.advance_eq, State.nextIp_noop]

end Machine
end Sys2Proof
end

section
/-! PROOF. SET, PUSH and POP (O15 to O17): what each answers when its operands resolve, and the fault it takes otherwise. -/

namespace Sys2Proof
namespace Machine

section
variable {s : State} {a b : Operand} {v : Word}

/-! ### operands that do not resolve, and the fault they raise -/

/-- A value operand that is an invalid word raises InvalidOperand (R63). -/
theorem operandVal_of_not_isValue (h : a.isValue = false) : operandVal s a = .error .invalidOperand := by
  obtain ⟨hv, -⟩ | ⟨-, he⟩ := operandVal_cases s a
  · simp [h] at hv
  · exact he

/-- A destination that is no register raises InvalidOperand (R64). -/
theorem operandDst_of_not_isReg (h : a.isReg = false) : operandDst a = .error .invalidOperand := by
  obtain ⟨d, rfl, -⟩ | ⟨-, he⟩ := operandDst_cases a
  · cases h
  · exact he

/-- A destination and a value, resolved in this order, raise InvalidOperand as soon as one of them is illegal (R64, R84). -/
theorem bind_dst_val_of_illegal {α : Type} (h : a.isReg = false ∨ b.isValue = false) (f : Reg → Word → Except Cause α) :
    (operandDst a >>= fun d => operandVal s b >>= f d) = .error .invalidOperand := by
  obtain ⟨d, rfl, hd⟩ | ⟨-, hd⟩ := operandDst_cases a
  · have hb : b.isValue = false := h.resolve_left nofun
    rw [hd, bind_ok, operandVal_of_not_isValue hb, bind_error]
  · rw [hd, bind_error]

/-- A fault other than OutOfBounds, raised with the opcode fetched, leaves a record with no address (R205, R206). -/
theorem State.raise_eq_plain (c : Cause) (hc : ∀ access addr, c ≠ .outOfBounds access addr) (s : State) (op : Word) :
    s.raise c (some op) = s.faultedWith (plainRecord c.code s.ip op) := by
  cases c with
  | outOfBounds access addr => exact absurd rfl (hc access addr)
  | _ => rfl

/-! ### the stack -/

theorem State.push_of_room (h : s.config.stackAllows (s.stack.length + 1) = true) :
    s.push v = .ok { s with stack := v :: s.stack } := by
  simp [State.push, h]

theorem State.push_of_full (h : s.config.stackAllows (s.stack.length + 1) = false) :
    s.push v = .error .stackOverflow := by
  simp [State.push, h]

theorem State.pop_of_cons {rest : List Word} (h : s.stack = v :: rest) :
    s.pop = .ok (v, { s with stack := rest }) := by
  simp [State.pop, h]

theorem State.pop_of_nil (h : s.stack = []) : s.pop = .error .stackUnderflow := by
  simp [State.pop, h]

/-! ### SET -/

/-- SET is three Words long (R60, R110). -/
theorem State.nextIp_set (s : State) (a b : Operand) : s.nextIp (.set a b) = s.ip + 3 := rfl

theorem exec_set_of_resolved (d : Reg) (hb : operandVal s b = .ok v) :
    exec (.set (.reg d) b) s = .next ((s.writeReg d v).advance (.set (.reg d) b)) := by
  simp only [exec, execSet, operandDst_reg, hb, bind_ok, pure_ok, complete_ok]

theorem exec_set_of_illegal (h : a.isReg = false ∨ b.isValue = false) :
    exec (.set a b) s = .next (s.raise .invalidOperand (some 1)) := by
  simp only [exec, execSet, bind_dst_val_of_illegal h, complete_error, Instr.opcode]

/-! ### PUSH -/

/-- PUSH is two Words long (R60, R111). -/
theorem State.nextIp_push (s : State) (a : Operand) : s.nextIp (.push a) = s.ip + 2 := rfl

/-- PUSH of a value that resolves goes on with the stack as `push(v)` leaves it, or takes its fault (R24, R111). -/
theorem exec_push_of_resolved (ha : operandVal s a = .ok v) :
    exec (.push a) s = complete (.push a) s (s.push v >>= fun t => .ok (t.advance (.push a))) := by
  simp only [exec, execPush, ha, bind_ok, pure_ok]

theorem exec_push_of_illegal (h : a.isValue = false) :
    exec (.push a) s = .next (s.raise .invalidOperand (some 2)) := by
  simp only [exec, execPush, operandVal_of_not_isValue h, bind_error, complete_error, Instr.opcode]

/-! ### POP -/

/-- POP is two Words long (R60, R112). -/
theorem State.nextIp_pop (s : State) (a : Operand) : s.nextIp (.pop a) = s.ip + 2 := rfl

/-- POP to a register puts the entry that `pop()` gives there, or takes its fault (R25, R112). -/
theorem exec_pop_reg (s : State) (d : Reg) :
    exec (.pop (.reg d)) s =
      complete (.pop (.reg d)) s (s.pop >>= fun p => .ok ((p.2.writeReg d p.1).advance (.pop (.reg d)))) := by
  simp only [exec, execPop, operandDst_reg, bind_ok, pure_ok]

/-- The destination is checked before the stack (R88). -/
theorem exec_pop_of_illegal (h : a.isReg = false) :
    exec (.pop a) s = .next (s.raise .invalidOperand (some 3)) := by
  simp only [exec, execPop, operandDst_of_not_isReg h, bind_error, complete_error, Instr.opcode]

end

/-! ### the obligations -/

/-- Settles O15: a resolved SET writes the register and goes three Words on; an illegal operand is a fault with no address. -/
theorem setCopiesValue : Obligations.SetCopiesValue := by
  refine ⟨fun s d b x hb => ?_, fun s a b h => ?_⟩
  · rw [exec_set_of_resolved d hb, State.advance_eq, State.nextIp_set]
    rfl
  · rw [exec_set_of_illegal h, State.raise_eq_plain .invalidOperand nofun]
    rfl

/-- Settles O16, by the two cases of `push(v)` and the operand check before it. -/
theorem pushAddsTop : Obligations.PushAddsTop := by
  refine ⟨fun s a x ha => ⟨fun hroom => ?_, fun hfull => ?_⟩, fun s a h => ?_⟩
  · rw [exec_push_of_resolved ha, State.push_of_room hroom, bind_ok, complete_ok, State.advance_eq, State.nextIp_push]
  · rw [exec_push_of_resolved ha, State.push_of_full hfull, bind_error, complete_error,
      State.raise_eq_plain .stackOverflow nofun]
    rfl
  · rw [exec_push_of_illegal h, State.raise_eq_plain .invalidOperand nofun]
    rfl

/-- Settles O17, by the two cases of `pop()` and the destination check before it. -/
theorem popTakesTop : Obligations.PopTakesTop := by
  refine ⟨fun s d => ⟨fun v rest hs => ?_, fun hs => ?_⟩, fun s a h => ?_⟩
  · rw [exec_pop_reg, State.pop_of_cons hs, bind_ok, complete_ok, State.advance_eq, State.nextIp_pop]
    rfl
  · rw [exec_pop_reg, State.pop_of_nil hs, bind_error, complete_error, State.raise_eq_plain .stackUnderflow nofun]
    rfl
  · rw [exec_pop_of_illegal h, State.raise_eq_plain .invalidOperand nofun]
    rfl

end Machine
end Sys2Proof
end

section
/-! PROOF. EQ, GT, ADD, MULT, MOD, AND, OR and NOT (O18 to O23): what the common form of the three-operand instructions answers when its
operands resolve and when they do not, then the Word each of them computes. -/

namespace Sys2Proof
namespace Machine

section
variable {s : State} {i : Instr} {f : Word → Word → Except Cause Word} {a b c : Operand} {x y z : Word}

/-! ### the common form, operands resolved or illegal -/

/-- A destination and two values, resolved in this order, raise InvalidOperand as soon as one of them is illegal (R64, R84). -/
theorem bind_dst_val_val_of_illegal {α : Type} (h : a.isReg = false ∨ b.isValue = false ∨ c.isValue = false)
    (g : Reg → Word → Word → Except Cause α) :
    (operandDst a >>= fun d => operandVal s b >>= fun x => operandVal s c >>= g d x) = .error .invalidOperand := by
  obtain ⟨d, rfl, hd⟩ | ⟨ha, -⟩ := operandDst_cases a
  · obtain ⟨hbv, x, hx⟩ | ⟨hb, -⟩ := operandVal_cases s b
    · have hc : c.isValue = false := (h.resolve_left nofun).resolve_left (by simp [hbv])
      rw [hd, bind_ok, hx, bind_ok, operandVal_of_not_isValue hc, bind_error]
    · exact bind_dst_val_of_illegal (.inr hb) _
  · exact bind_dst_val_of_illegal (.inl ha) _

/-- An illegal operand of a three-operand instruction is taken as a fault before anything is computed (R88). -/
theorem aluBinary_of_illegal (h : a.isReg = false ∨ b.isValue = false ∨ c.isValue = false) :
    aluBinary i f a b c s = .next (s.faultedWith (plainRecord .invalidOperand s.ip i.opcode)) := by
  rw [aluBinary, bind_dst_val_val_of_illegal h, complete_error, State.raise_eq_plain .invalidOperand nofun]
  rfl

/-- With its operands resolved, what is left of a three-operand instruction is its computation (R85). -/
theorem aluBinary_of_resolved (d : Reg) (hb : operandVal s b = .ok x) (hc : operandVal s c = .ok y) :
    aluBinary i f (.reg d) b c s = complete i s (f x y >>= fun z => .ok ((s.writeReg d z).advance i)) := by
  simp only [aluBinary, operandDst_reg, hb, hc, bind_ok, pure_ok]

theorem State.advance_writeReg_of_length {n : Nat} (hi : i.length = n) (d : Reg) :
    (s.writeReg d z).advance i = { s with regs := Regs.write s.regs d z, ip := s.ip + BitVec.ofNat 16 n } := by
  rw [State.advance_eq, State.nextIp, hi]
  rfl

/-- A computed result goes to the destination, and the IP four Words on: nothing else changes. -/
theorem aluBinary_of_result (hi : i.length = 4) (d : Reg) (hb : operandVal s b = .ok x) (hc : operandVal s c = .ok y)
    (hf : f x y = .ok z) :
    aluBinary i f (.reg d) b c s = .next { s with regs := Regs.write s.regs d z, ip := s.ip + 4 } := by
  rw [aluBinary_of_resolved d hb hc, hf, bind_ok, complete_ok, State.advance_writeReg_of_length hi]
  rfl

/-! ### the instructions in the common form -/

theorem exec_eq : exec (.eq a b c) s = aluBinary (.eq a b c) (fun x y => .ok (aluEq x y)) a b c s := rfl
theorem exec_gt : exec (.gt a b c) s = aluBinary (.gt a b c) (fun x y => .ok (aluGt x y)) a b c s := rfl
theorem exec_add : exec (.add a b c) s = aluBinary (.add a b c) (fun x y => .ok (aluAdd x y)) a b c s := rfl
theorem exec_mult : exec (.mult a b c) s = aluBinary (.mult a b c) (fun x y => .ok (aluMult x y)) a b c s := rfl
theorem exec_mod : exec (.mod a b c) s = aluBinary (.mod a b c) aluMod a b c s := rfl
theorem exec_and :
    exec (.and a b c) s = aluBinary (.and a b c) (fun x y => .ok (aluAnd s.config.wideLogic x y)) a b c s := rfl
theorem exec_or :
    exec (.or a b c) s = aluBinary (.or a b c) (fun x y => .ok (aluOr s.config.wideLogic x y)) a b c s := rfl

/-- NOT of a value that resolves writes its result and goes three Words on: nothing else changes. -/
theorem exec_not_of_resolved (d : Reg) (hb : operandVal s b = .ok x) :
    exec (.not (.reg d) b) s = .next { s with
      regs := Regs.write s.regs d (aluNot s.config.wideLogic x), ip := s.ip + 3 } := by
  simp only [exec, execNot, operandDst_reg, hb, bind_ok, pure_ok, complete_ok]
  rw [State.advance_writeReg_of_length (n := 3) rfl]
  rfl

theorem exec_not_of_illegal (h : a.isReg = false ∨ b.isValue = false) :
    exec (.not a b) s = .next (s.faultedWith (plainRecord .invalidOperand s.ip 14)) := by
  simp only [exec, execNot, bind_dst_val_of_illegal h, complete_error]
  rw [State.raise_eq_plain .invalidOperand nofun]
  rfl

/-! ### comparisons and arithmetic -/

/-- Words are equal exactly when their numbers are (R121). -/
theorem aluEq_eq_ite_toNat (x y : Word) : aluEq x y = if x.toNat = y.toNat then 1 else 0 := by
  simp only [aluEq, BitVec.toNat_inj]

/-- Clearing bit 15 of a Word is reducing its number modulo 32768 (R120 item 2). -/
theorem toNat_and_32767 (x : Word) : (x &&& 32767).toNat = x.toNat % 32768 :=
  (BitVec.toNat_and x 32767).trans (Nat.and_two_pow_sub_one_eq_mod x.toNat 15)

/-- A number narrowed to 16 bits and then cleared of bit 15 is that number modulo 32768, since 32768 divides 65536. -/
theorem ofNat_mod_32768_eq_and (n : Nat) : BitVec.ofNat 16 (n % 32768) = BitVec.ofNat 16 n &&& 32767 := by
  apply BitVec.eq_of_toNat_eq
  rw [toNat_and_32767, BitVec.toNat_ofNat, BitVec.toNat_ofNat]
  omega

theorem aluAdd_eq_wrapping (x y : Word) : aluAdd x y = (x + y) &&& 32767 := by
  rw [aluAdd, ofNat_mod_32768_eq_and, BitVec.ofNat_add, BitVec.ofNat_toNat, BitVec.ofNat_toNat,
    BitVec.setWidth_eq, BitVec.setWidth_eq]

theorem aluMult_eq_wrapping (x y : Word) : aluMult x y = (x * y) &&& 32767 := by
  rw [aluMult, ofNat_mod_32768_eq_and, BitVec.ofNat_mul, BitVec.ofNat_toNat, BitVec.ofNat_toNat,
    BitVec.setWidth_eq, BitVec.setWidth_eq]

theorem aluMod_of_ne_zero (h : y.toNat ≠ 0) : aluMod x y = .ok (BitVec.ofNat 16 (x.toNat % y.toNat)) :=
  if_neg fun hy => h (by rw [hy]; rfl)

theorem aluMod_of_eq_zero (h : y.toNat = 0) : aluMod x y = .error .divideByZero :=
  if_pos (BitVec.eq_of_toNat_eq h)

/-! ### bitwise operations under the two settings of WIDE_LOGIC -/

/-- AND of the operands' bits [14:0] is bits [14:0] of the AND. -/
theorem aluAnd_mask15 (x y : Word) : aluAnd .mask15 x y = (x &&& y) &&& 0x7FFF := by
  simp only [aluAnd, logicOperand]
  ac_rfl

/-- OR of the operands' bits [14:0] is bits [14:0] of the OR. -/
theorem aluOr_mask15 (x y : Word) : aluOr .mask15 x y = (x ||| y) &&& 0x7FFF :=
  BitVec.and_or_distrib_right.symm

/-- NOT of the operand's bits [14:0] is bits [14:0] of the NOT. -/
theorem aluNot_mask15 (x : Word) : aluNot .mask15 x = (0x7FFF ^^^ x) &&& 0x7FFF :=
  BitVec.eq_of_toNat_eq (Nat.and_xor_distrib_right (a := 32767) (b := x.toNat) (c := 32767)).symm

/-- A value below 32768 is its bits [14:0], so both settings read it alike. -/
theorem logicOperand_of_lt (w : WideLogic) (h : x.toNat < 32768) : logicOperand w x = x := by
  cases w with
  | full16 => rfl
  | mask15 => exact BitVec.eq_of_toNat_eq ((toNat_and_32767 x).trans (Nat.mod_eq_of_lt h))

/-- Subtracting a number below 2^15 from 2^15 - 1 borrows nowhere, so it inverts the fifteen bits. -/
theorem xor_32767_of_lt {n : Nat} (h : n < 32768) : 32767 ^^^ n = 32767 - n := by
  have hsub : 32767 - n = 2 ^ 15 - (n + 1) := by omega
  rw [hsub]
  refine Nat.eq_of_testBit_eq fun j => ?_
  rw [Nat.testBit_xor, Nat.testBit_two_pow_sub_succ h, Nat.testBit_two_pow_sub_one 15 j]
  by_cases hj : j < 15
  · simp [hj]
  · have hn : n.testBit j = false :=
      Nat.testBit_lt_two_pow (h.trans_le (Nat.pow_le_pow_right (n := 2) (by decide) (not_lt.1 hj)))
    simp [hj, hn]

theorem aluNot_of_lt (w : WideLogic) (h : x.toNat < 32768) : aluNot w x = BitVec.ofNat 16 (32767 - x.toNat) := by
  rw [aluNot, logicOperand_of_lt w h, ← xor_32767_of_lt h, BitVec.ofNat_xor, BitVec.ofNat_toNat, BitVec.setWidth_eq]
  rfl

end

/-! ### the obligations -/

/-- Settles O18: both are the common form, and Words are compared by their numbers. -/
theorem eqAndGtCompareUnsigned : Obligations.EqAndGtCompareUnsigned := by
  refine ⟨fun s d b c x y hb hc => ⟨?_, ?_⟩, fun s a b c h => ⟨?_, ?_⟩⟩
  · rw [exec_eq, ← aluEq_eq_ite_toNat]
    exact aluBinary_of_result rfl d hb hc rfl
  · exact exec_gt.trans (aluBinary_of_result rfl d hb hc rfl)
  · exact exec_eq.trans (aluBinary_of_illegal h)
  · exact exec_gt.trans (aluBinary_of_illegal h)

/-- Settles O19: both are the common form, computing the exact number and narrowing it at the end (R120). -/
theorem addAndMultModulo32768 : Obligations.AddAndMultModulo32768 := by
  refine ⟨fun s d b c x y hb hc => ⟨?_, ?_⟩, fun s a b c h => ⟨?_, ?_⟩⟩
  · exact exec_add.trans (aluBinary_of_result rfl d hb hc rfl)
  · exact exec_mult.trans (aluBinary_of_result rfl d hb hc rfl)
  · exact exec_add.trans (aluBinary_of_illegal h)
  · exact exec_mult.trans (aluBinary_of_illegal h)

/-- Settles O20: the destination holds what O19 writes there, and that is the wrapping result with bit 15 cleared. -/
theorem wrappingAdderRealisesAddAndMult : Obligations.WrappingAdderRealisesAddAndMult := by
  intro s t u d b c x y hb hc ht hu
  obtain ⟨hadd, hmult⟩ := addAndMultModulo32768.1 s d b c x y hb hc
  obtain rfl := Host.Outcome.next.inj (hadd.symm.trans ht)
  obtain rfl := Host.Outcome.next.inj (hmult.symm.trans hu)
  exact ⟨(State.readReg_writeReg_same s d _).trans (aluAdd_eq_wrapping x y),
    (State.readReg_writeReg_same s d _).trans (aluMult_eq_wrapping x y)⟩

/-- Settles O21, by the two cases of the divisor and the operand check before them. -/
theorem modRemainderOrDivideByZero : Obligations.ModRemainderOrDivideByZero := by
  refine ⟨fun s d b c x y hb hc => ⟨fun hy => ?_, fun hy => ?_⟩, fun s a b c h => ?_⟩
  · exact exec_mod.trans (aluBinary_of_result rfl d hb hc (aluMod_of_ne_zero hy))
  · rw [exec_mod, aluBinary_of_resolved d hb hc, aluMod_of_eq_zero hy, bind_error, complete_error,
      State.raise_eq_plain .divideByZero nofun]
    rfl
  · exact exec_mod.trans (aluBinary_of_illegal h)

/-- Settles O22: masking the operands, as MASK15 does, masks the result. -/
theorem andAndOrBitwise : Obligations.AndAndOrBitwise := by
  refine ⟨fun s d b c x y hb hc => ⟨fun hw => ⟨?_, ?_⟩, fun hw => ⟨?_, ?_⟩⟩, fun s a b c h => ⟨?_, ?_⟩⟩
  · exact exec_and.trans (aluBinary_of_result rfl d hb hc (by rw [hw]; rfl))
  · exact exec_or.trans (aluBinary_of_result rfl d hb hc (by rw [hw]; rfl))
  · exact exec_and.trans (aluBinary_of_result rfl d hb hc (by rw [hw, aluAnd_mask15]))
  · exact exec_or.trans (aluBinary_of_result rfl d hb hc (by rw [hw, aluOr_mask15]))
  · exact exec_and.trans (aluBinary_of_illegal h)
  · exact exec_or.trans (aluBinary_of_illegal h)

/-- Settles O23: masking the operand, as MASK15 does, masks the result, and below 32768 it changes nothing. -/
theorem notFlipsLowFifteenBits : Obligations.NotFlipsLowFifteenBits := by
  refine ⟨fun s d b x hb => ⟨fun hw => ?_, fun hw => ?_, fun hx => ?_⟩, fun s a b h => exec_not_of_illegal h⟩
  · rw [exec_not_of_resolved d hb, hw]
    rfl
  · rw [exec_not_of_resolved d hb, hw, aluNot_mask15]
  · rw [exec_not_of_resolved d hb, aluNot_of_lt _ hx]

end Machine
end Sys2Proof
end

section
/-! PROOF. JMP, JT, JF, CALL and RET (O24 to O28): what each answers when its operands resolve, and the fault it takes otherwise. -/

namespace Sys2Proof
namespace Machine

section
variable {s : State} {i : Instr} {a b : Operand} {x t : Word}

/-! ### faults and targets -/

/-- A fault other than OutOfBounds ends an instruction with a record that has no address (R85, R206). -/
theorem complete_error_plain {c : Cause} (hc : ∀ access addr, c ≠ .outOfBounds access addr) :
    complete i s (.error c) = .next (s.faultedWith (plainRecord c.code s.ip i.opcode)) := by
  rw [complete_error, State.raise_eq_plain c hc]

/-- Two values, resolved in this order, raise InvalidOperand as soon as one of them is an invalid word (R63, R84). -/
theorem bind_val_val_of_illegal {α : Type} (h : a.isValue = false ∨ b.isValue = false)
    (f : Word → Word → Except Cause α) :
    (operandVal s a >>= fun x => operandVal s b >>= f x) = .error .invalidOperand := by
  obtain ⟨hv, x, hx⟩ | ⟨-, ha⟩ := operandVal_cases s a
  · have hb : b.isValue = false := h.resolve_left (by simp [hv])
    rw [hx, bind_ok, operandVal_of_not_isValue hb, bind_error]
  · rw [ha, bind_error]

/-- A jump changes the IP alone (R140). -/
theorem State.jump_eq (s : State) (t : Word) : s.jump t = { s with ip := t } := rfl

/-- A branch sets the IP, taken or not (R142, R143). -/
theorem State.branch_eq (p : Prop) [Decidable p] (s : State) (i : Instr) (t : Word) :
    (if p then s.jump t else s.advance i) = { s with ip := if p then t else s.nextIp i } :=
  (apply_ite s.jump p t (s.nextIp i)).symm

theorem eq_zero_iff_toNat (x : Word) : x = 0 ↔ x.toNat = 0 := BitVec.toNat_eq

/-! ### JMP -/

theorem exec_jmp_of_resolved (ha : operandVal s a = .ok t) : exec (.jmp a) s = .next (s.jump t) := by
  simp only [exec, execJmp, ha, bind_ok, pure_ok, complete_ok]

theorem exec_jmp_of_illegal (h : a.isValue = false) :
    exec (.jmp a) s = .next (s.faultedWith (plainRecord .invalidOperand s.ip 6)) := by
  simp only [exec, execJmp, operandVal_of_not_isValue h, bind_error]
  exact complete_error_plain nofun

/-! ### JT and JF -/

/-- JT is three Words long (R60, R142). -/
theorem State.nextIp_jt (s : State) (a b : Operand) : s.nextIp (.jt a b) = s.ip + 3 := rfl

/-- JF is three Words long (R60, R143). -/
theorem State.nextIp_jf (s : State) (a b : Operand) : s.nextIp (.jf a b) = s.ip + 3 := rfl

theorem exec_jt_of_resolved (ha : operandVal s a = .ok x) (hb : operandVal s b = .ok t) :
    exec (.jt a b) s = .next { s with ip := if x ≠ 0 then t else s.ip + 3 } := by
  simp only [exec, execJt, ha, hb, bind_ok, pure_ok, complete_ok, State.branch_eq, State.nextIp_jt]

theorem exec_jf_of_resolved (ha : operandVal s a = .ok x) (hb : operandVal s b = .ok t) :
    exec (.jf a b) s = .next { s with ip := if x = 0 then t else s.ip + 3 } := by
  simp only [exec, execJf, ha, hb, bind_ok, pure_ok, complete_ok, State.branch_eq, State.nextIp_jf]

theorem exec_jt_of_illegal (h : a.isValue = false ∨ b.isValue = false) :
    exec (.jt a b) s = .next (s.faultedWith (plainRecord .invalidOperand s.ip 7)) := by
  simp only [exec, execJt, bind_val_val_of_illegal h]
  exact complete_error_plain nofun

theorem exec_jf_of_illegal (h : a.isValue = false ∨ b.isValue = false) :
    exec (.jf a b) s = .next (s.faultedWith (plainRecord .invalidOperand s.ip 8)) := by
  simp only [exec, execJf, bind_val_val_of_illegal h]
  exact complete_error_plain nofun

/-! ### CALL and RET -/

/-- CALL is two Words long (R60, R144). -/
theorem State.nextIp_call (s : State) (a : Operand) : s.nextIp (.call a) = s.ip + 2 := rfl

/-- CALL of a target that resolves pushes the return address and jumps, or takes the fault of `push(v)` (R24, R144). -/
theorem exec_call_of_resolved (ha : operandVal s a = .ok t) :
    exec (.call a) s = complete (.call a) s (s.push (s.ip + 2) >>= fun u => .ok (u.jump t)) := by
  simp only [exec, execCall, ha, bind_ok, pure_ok, State.nextIp_call]

/-- The target is resolved before the stack is looked at (R88). -/
theorem exec_call_of_illegal (h : a.isValue = false) :
    exec (.call a) s = .next (s.faultedWith (plainRecord .invalidOperand s.ip 17)) := by
  simp only [exec, execCall, operandVal_of_not_isValue h, bind_error]
  exact complete_error_plain nofun

/-- RET jumps to the entry that `pop()` gives, or takes its fault (R25, R145). -/
theorem exec_ret (s : State) : exec .ret s = complete .ret s (s.pop >>= fun p => .ok (p.2.jump p.1)) := rfl

end

/-! ### the obligations -/

/-- Settles O24: a jump sets the IP to whatever the operand resolves to. -/
theorem jmpSetsIp : Obligations.JmpSetsIp := by
  refine ⟨fun s a t ha => ?_, fun s a h => exec_jmp_of_illegal h⟩
  rw [exec_jmp_of_resolved ha, State.jump_eq]

/-- Settles O25: a Word is 0 exactly when its number is, and both operands are resolved before it is asked. -/
theorem jtAndJfBranchOnZero : Obligations.JtAndJfBranchOnZero := by
  refine ⟨fun s a b x t ha hb => ⟨?_, ?_⟩, fun s a b h => ⟨exec_jt_of_illegal h, exec_jf_of_illegal h⟩⟩
  · simp only [exec_jt_of_resolved ha hb, ne_eq, eq_zero_iff_toNat]
  · simp only [exec_jf_of_resolved ha hb, eq_zero_iff_toNat]

/-- Settles O26, by the two cases of `push(v)` and the operand check before it. -/
theorem callPushesReturnAddress : Obligations.CallPushesReturnAddress := by
  refine ⟨fun s a t ha => ⟨fun hroom => ?_, fun hfull => ?_⟩, fun s a h => exec_call_of_illegal h⟩
  · rw [exec_call_of_resolved ha, State.push_of_room hroom, bind_ok, complete_ok, State.jump_eq]
  · rw [exec_call_of_resolved ha, State.push_of_full hfull, bind_error]
    exact complete_error_plain nofun

/-- Settles O27, by the two cases of `pop()`. -/
theorem retPopsIp : Obligations.RetPopsIp := by
  refine fun s => ⟨fun v rest hs => ?_, fun hs => ?_⟩
  · rw [exec_ret, State.pop_of_cons hs, bind_ok, complete_ok, State.jump_eq]
  · rw [exec_ret, State.pop_of_nil hs, bind_error]
    exact complete_error_plain nofun

/-- Settles O28: a CALL that takes no fault has left IP + 2 on the stack (O26), and that is where RET goes (O27). -/
theorem callThenRetReturns : Obligations.CallThenRetReturns := by
  intro s t a hcall hok
  obtain ⟨hresolved, hillegal⟩ := callPushesReturnAddress
  obtain ⟨-, x, ha⟩ | ⟨hv, -⟩ := operandVal_cases s a
  · obtain ⟨hpushed, hfull⟩ := hresolved s a x ha
    obtain ⟨hroom, -⟩ | ⟨hno, -⟩ := State.push_cases s (s.ip + 2)
    · obtain rfl := Host.Outcome.next.inj ((hpushed hroom).symm.trans hcall)
      exact (retPopsIp _).1 (s.ip + 2) s.stack rfl
    · obtain rfl := Host.Outcome.next.inj ((hfull hno).symm.trans hcall)
      exact absurd rfl hok
  · obtain rfl := Host.Outcome.next.inj ((hillegal s a hv).symm.trans hcall)
    exact absurd rfl hok

end Machine
end Sys2Proof
end

section
/-! PROOF. RMEM and WMEM (O29, O30): what each answers inside memory and from MEM_SIZE on, and the fault of an operand that does not
resolve. -/

namespace Sys2Proof
namespace Machine

section
variable {s : State} {a b : Operand} {addr v : Word}

/-! ### an address from MEM_SIZE on, and the fault it raises -/

/-- OutOfBounds ends an instruction with a record of the access and its address (R85, R206, R209). -/
theorem complete_error_bounds (i : Instr) (s : State) (access : Access) (addr : Word) :
    complete i s (.error (.outOfBounds access addr)) =
      .next (s.faultedWith (boundsRecord access addr s.ip i.opcode)) := rfl

/-- `MemRead` from MEM_SIZE on raises OutOfBounds with the address (R42). -/
theorem State.memRead_of_le (access : Access) (h : s.memSize ≤ addr.toNat) :
    s.memRead access addr.toNat = .error (.outOfBounds access addr) := by
  obtain ⟨hin, -⟩ | ⟨-, herr⟩ := State.memRead_cases s access addr.toNat
  · exact absurd hin (Nat.not_lt.2 h)
  · rw [herr, BitVec.ofNat_toNat, BitVec.setWidth_eq]

/-- `MemWrite` inside memory writes the Word and changes nothing else of the state (R43). -/
theorem State.memWrite_of_lt (h : addr.toNat < s.memSize) :
    s.memWrite addr.toNat v = .ok { s with mem := Memory.write addr.toNat v s.mem } :=
  if_pos h

/-- `MemWrite` from MEM_SIZE on raises OutOfBounds with the address (R43). -/
theorem State.memWrite_of_le (h : s.memSize ≤ addr.toNat) :
    s.memWrite addr.toNat v = .error (.outOfBounds .wmemWrite addr) := by
  obtain ⟨hin, -⟩ | ⟨-, herr⟩ := State.memWrite_cases s addr.toNat v
  · exact absurd hin (Nat.not_lt.2 h)
  · rw [herr, BitVec.ofNat_toNat, BitVec.setWidth_eq]

/-! ### RMEM -/

/-- RMEM with operands that resolve goes on with the Word `MemRead` gives in the register, or takes its fault (R42, R161). -/
theorem exec_rmem_of_resolved (d : Reg) (hb : operandVal s b = .ok addr) :
    exec (.rmem (.reg d) b) s = complete (.rmem (.reg d) b) s
      (s.memRead .rmemRead addr.toNat >>= fun w => .ok ((s.writeReg d w).advance (.rmem (.reg d) b))) := by
  simp only [exec, execRmem, operandDst_reg, hb, bind_ok, pure_ok]

/-- The operands are resolved before memory is read (R84, R161). -/
theorem exec_rmem_of_illegal (h : a.isReg = false ∨ b.isValue = false) :
    exec (.rmem a b) s = .next (s.faultedWith (plainRecord .invalidOperand s.ip 15)) := by
  simp only [exec, execRmem, bind_dst_val_of_illegal h]
  exact complete_error_plain nofun

/-! ### WMEM -/

/-- WMEM is three Words long (R60, R162). -/
theorem State.nextIp_wmem (s : State) (a b : Operand) : s.nextIp (.wmem a b) = s.ip + 3 := rfl

/-- WMEM with operands that resolve goes on with memory as `MemWrite` leaves it, or takes its fault (R43, R162). -/
theorem exec_wmem_of_resolved (ha : operandVal s a = .ok addr) (hb : operandVal s b = .ok v) :
    exec (.wmem a b) s =
      complete (.wmem a b) s (s.memWrite addr.toNat v >>= fun t => .ok (t.advance (.wmem a b))) := by
  simp only [exec, execWmem, ha, hb, bind_ok, pure_ok]

/-- Both operands are resolved before memory is written (R84, R162). -/
theorem exec_wmem_of_illegal (h : a.isValue = false ∨ b.isValue = false) :
    exec (.wmem a b) s = .next (s.faultedWith (plainRecord .invalidOperand s.ip 16)) := by
  simp only [exec, execWmem, bind_val_val_of_illegal h]
  exact complete_error_plain nofun

/-- WMEM inside memory writes its value at its address and goes three Words on: nothing else changes. -/
theorem exec_wmem_of_lt (ha : operandVal s a = .ok addr) (hb : operandVal s b = .ok v) (h : addr.toNat < s.memSize) :
    exec (.wmem a b) s = .next { s with mem := Memory.write addr.toNat v s.mem, ip := s.ip + 3 } := by
  rw [exec_wmem_of_resolved ha hb, State.memWrite_of_lt h, bind_ok, complete_ok, State.advance_eq, State.nextIp_wmem]

end

/-! ### the obligations -/

/-- Settles O29, by the two cases of `MemRead` and the operand check before it. -/
theorem rmemReadsWord : Obligations.RmemReadsWord := by
  refine ⟨fun s d b addr hb => ⟨fun hin => ?_, fun hout => ?_⟩, fun s a b h => exec_rmem_of_illegal h⟩
  · rw [exec_rmem_of_resolved d hb, State.memRead_of_lt _ hin, bind_ok, complete_ok,
      State.advance_writeReg_of_length (n := 3) rfl]
    rfl
  · rw [exec_rmem_of_resolved d hb, State.memRead_of_le _ hout, bind_error, complete_error_bounds]
    rfl

/-- Settles O30, by the two cases of `MemWrite` and the operand check before it; the new memory is the write, which keeps the canonical
form, and which reads as the old memory but at the address written (R47, R51). -/
theorem wmemWritesWord : Obligations.WmemWritesWord := by
  refine ⟨fun s a b addr v ha hb => ⟨fun hin hwf => ?_, fun hout => ?_⟩, fun s a b h => exec_wmem_of_illegal h⟩
  · exact ⟨Memory.write addr.toNat v s.mem, exec_wmem_of_lt ha hb hin, Memory.wf_write _ _ _ hwf,
      Memory.read_write_same _ _ _ hwf, fun x hx => Memory.read_write_other _ _ _ _ hx⟩
  · rw [exec_wmem_of_resolved ha hb, State.memWrite_of_le hout, bind_error, complete_error_bounds]
    rfl

end Machine
end Sys2Proof
end

section
/-! PROOF. OUT and IN (O31 to O36, O53): IN's protocol read as a whole (the digits of an override denote their decimal number, and bytes
that end too early meet the host's next answer), then what OUT and IN answer in each case. -/

namespace Sys2Proof
namespace Machine

/-! ### the number of an override -/

section
variable {ended : Bool} {n : Option Word} {d : Byte} {ds rest : List Byte}

/-- The number an override holds after its digits `ds`, none before the first one (R174). -/
def overrideNumber (ds : List Byte) : Option Word :=
  if ds = [] then none else some (BitVec.ofNat 16 (decimalValue ds))

@[simp] theorem overrideNumber_nil : overrideNumber [] = none := rfl

theorem overrideNumber_of_ne_nil (h : ds ≠ []) : overrideNumber ds = some (BitVec.ofNat 16 (decimalValue ds)) :=
  if_neg h

theorem decimalValue_concat (ds : List Byte) (d : Byte) :
    decimalValue (ds ++ [d]) = 10 * decimalValue ds + (d.toNat - 48) := by
  simp [decimalValue]

/-- A number that fits a Word is held exactly, and no digit counts as 0. -/
theorem toNat_overrideNumber (hv : decimalValue ds ≤ 65535) : ((overrideNumber ds).getD 0).toNat = decimalValue ds := by
  by_cases h : ds = []
  · subst h; rfl
  · rw [overrideNumber_of_ne_nil h, Option.getD_some, BitVec.toNat_ofNat, Nat.mod_eq_of_lt (by omega)]

theorem isDigit_iff (d : Byte) : isDigit d = true ↔ 48 ≤ d.toNat ∧ d.toNat ≤ 57 := by
  simp [isDigit]

theorem ne_delimiter_of_isDigit (h : isDigit d = true) : d ≠ delimiter := by
  rintro rfl
  exact absurd h (by decide)

theorem addDigit_of_not_isDigit (h : isDigit d = false) : addDigit n d = none := by
  have hno : ¬(48 ≤ d.toNat ∧ d.toNat ≤ 57) := by simp [← isDigit_iff, h]
  exact if_pos (by omega)

/-- One more digit makes the number of the longer digit sequence, unless that is above 65535 (R174). -/
theorem addDigit_overrideNumber (hd : isDigit d = true) (hv : decimalValue ds ≤ 65535) :
    addDigit (overrideNumber ds) d =
      if 65535 < decimalValue (ds ++ [d]) then none else overrideNumber (ds ++ [d]) := by
  rw [isDigit_iff] at hd
  rw [addDigit, if_neg (by omega), toNat_overrideNumber hv, ← decimalValue_concat,
    overrideNumber_of_ne_nil (List.concat_ne_nil d ds)]

/-! ### the protocol on whole inputs -/

/-- A byte that is no digit, or one that makes the number too large, ends the override (R174). -/
theorem inNumber_of_addDigit_eq_none (hd : d ≠ delimiter) (hn : addDigit n d = none) :
    inNumber ended n (d :: rest) = .malformed rest := by
  simp [inNumber, hd, hn]

/-- An override that closes with no digit is malformed (R174). -/
theorem inNumber_none_close : inNumber ended none (delimiter :: rest) = .malformed rest := by
  simp [inNumber]

/-- Reading digits: the override goes on with their number (R174). By induction on the last digit, so that the number read before it is
the number of the digits before it. -/
theorem inNumber_digits (hds : ds.all isDigit = true) (hv : decimalValue ds ≤ 65535) :
    inNumber ended none (ds ++ rest) = inNumber ended (overrideNumber ds) rest := by
  induction ds using List.reverseRecOn generalizing rest with
  | nil => rfl
  | append_singleton ds d ih =>
    obtain ⟨hinit, hd⟩ : ds.all isDigit = true ∧ isDigit d = true := by simpa using hds
    have hv' : decimalValue ds ≤ 65535 := by rw [decimalValue_concat] at hv; omega
    have hadd : addDigit (overrideNumber ds) d = overrideNumber (ds ++ [d]) := by
      rw [addDigit_overrideNumber hd hv', if_neg (by omega)]
    rw [overrideNumber_of_ne_nil (List.concat_ne_nil d ds)] at hadd ⊢
    rw [List.append_assoc, List.singleton_append, ih hinit hv',
      inNumber_digit ended _ d _ rest (ne_delimiter_of_isDigit hd) hadd]

/-- An IN whose input begins with `|` and digits (R173, R174). -/
theorem inFirst_override (hds : ds.all isDigit = true) (hv : decimalValue ds ≤ 65535) :
    inFirst ended (124 :: ds ++ rest) = inNumber ended (overrideNumber ds) rest :=
  (inFirst_delimiter ended (ds ++ rest)).trans (inNumber_digits hds hv)

/-- After `|digits|` the next byte is the one to deliver (R174). -/
theorem inFirst_override_close (hds : ds.all isDigit = true) (hv : decimalValue ds ≤ 65535) (hne : ds ≠ []) :
    inFirst ended (124 :: ds ++ 124 :: rest) = inLast ended (BitVec.ofNat 16 (decimalValue ds)) rest := by
  rw [inFirst_override hds hv, overrideNumber_of_ne_nil hne]
  exact inNumber_close ended _ rest

/-- An override that stops before its number or its byte to deliver is complete asks for a byte there is none of (R170, R174). -/
theorem inFirst_unfinished {bs : List Byte} (hds : ds.all isDigit = true) (hv : decimalValue ds ≤ 65535)
    (h : bs = 124 :: ds ∨ (ds ≠ [] ∧ bs = 124 :: ds ++ [124])) : ∃ p, ∀ ended, inFirst ended bs = inNoByte ended p := by
  obtain rfl | ⟨hne, rfl⟩ := h
  · refine ⟨.number (overrideNumber ds), fun ended => ?_⟩
    rw [← List.append_nil (124 :: ds), inFirst_override hds hv, inNumber]
  · exact ⟨.last _, fun ended => inFirst_override_close hds hv hne⟩

/-- A byte after `|digits` that is neither digit nor `|`, or takes the number above 65535, is the last one read (R174). -/
theorem inFirst_malformed (hds : ds.all isDigit = true) (hv : decimalValue ds ≤ 65535)
    (hd : (isDigit d = false ∧ d ≠ 124) ∨ (isDigit d = true ∧ 65535 < decimalValue (ds ++ [d]))) :
    inFirst ended (124 :: ds ++ d :: rest) = .malformed rest := by
  rw [inFirst_override hds hv]
  obtain ⟨hno, hne⟩ | ⟨hdigit, hlarge⟩ := hd
  · exact inNumber_of_addDigit_eq_none hne (addDigit_of_not_isDigit hno)
  · exact inNumber_of_addDigit_eq_none (ne_delimiter_of_isDigit hdigit)
      (by rw [addDigit_overrideNumber hdigit hv, if_pos hlarge])

/-- In every phase, an IN with no byte answered asks for one (R170). -/
theorem inProtocol_nil (p : InPhase) : inProtocol ended p [] = inNoByte ended p := by
  cases p <;> rfl

/-- A wait goes on where it stopped, in whatever phase it began (R170). -/
theorem inProtocol_append {p q : InPhase} {xs : List Byte} (ys : List Byte) (h : inProtocol false p xs = .waits q) :
    inProtocol ended p (xs ++ ys) = inProtocol ended q ys := by
  cases xs with
  | nil =>
    rw [inProtocol_nil] at h
    cases h
    rfl
  | cons c xs =>
    cases p with
    | number n => exact inNumber_append ended n (c :: xs) ys q h
    | last ov => cases h
    | first =>
      by_cases hc : c = delimiter
      · subst hc
        exact (inFirst_delimiter ended (xs ++ ys)).trans
          (inNumber_append ended none xs ys q ((inFirst_delimiter false xs).symm.trans h))
      · cases (inFirst_plain false c xs hc).symm.trans h

end

/-! ### OUT -/

section
variable {s : State} {a : Operand} {x : Word}

/-- OUT is two Words long (R60, R172). -/
theorem State.nextIp_out (s : State) (a : Operand) : s.nextIp (.out a) = s.ip + 2 := rfl

theorem exec_out_of_resolved (ha : operandVal s a = .ok x) :
    exec (.out a) s = .next { s with output := s.output ++ [x.setWidth 8], ip := s.ip + 2 } := by
  simp only [exec, execOut, ha, bind_ok, pure_ok, complete_ok, State.advance_eq]
  rfl

theorem exec_out_of_illegal (h : a.isValue = false) :
    exec (.out a) s = .next (s.faultedWith (plainRecord .invalidOperand s.ip 19)) := by
  simp only [exec, execOut, operandVal_of_not_isValue h, bind_error]
  exact complete_error_plain nofun

/-- The polling point takes no fault (R87). -/
theorem State.poll_not_failed (h : ¬ s.failed) : ¬ s.poll.failed := by
  obtain ⟨-, -, -, hp⟩ | ⟨-, hp⟩ := State.poll_cases s
  · rw [hp]; nofun
  · rwa [hp]

end

/-! ### IN -/

section
variable {s t : State} {d : Reg} {a : Operand} {c : Byte} {ov : Option Word} {rest : List Byte} {p : InPhase}

/-- The destination is checked before any byte is read (R88, R173). -/
theorem exec_inp_of_illegal (h : a.isReg = false) :
    exec (.inp a) s = .next (s.faultedWith (plainRecord .invalidOperand s.ip 20)) := by
  simp only [exec, execInp, operandDst_of_not_isReg h, State.raise_eq_plain .invalidOperand nofun]
  rfl

theorem exec_inp_of_delivered (hidle : s.inPhase = none) (h : inFirst s.inputEnded s.input = .delivered c ov rest) :
    exec (.inp (.reg d)) s = .next { s with
      regs := Regs.write (s.applyOverride ov).regs d (c.setWidth 16), ip := s.ip + 2, input := rest } := by
  simp only [exec, execInp, operandDst_reg, hidle, Option.getD_none, inProtocol, h]
  cases ov <;> rfl

theorem exec_inp_of_exhausted (hidle : s.inPhase = none) (h : inFirst s.inputEnded s.input = .exhausted) :
    exec (.inp (.reg d)) s = .next ({ s with input := [] }.faultedWith (plainRecord .inputExhausted s.ip 20)) := by
  simp only [exec, execInp, operandDst_reg, hidle, Option.getD_none, inProtocol, h]
  rfl

theorem exec_inp_of_malformed (hidle : s.inPhase = none) (h : inFirst s.inputEnded s.input = .malformed rest) :
    exec (.inp (.reg d)) s = .next ({ s with input := rest }.faultedWith (plainRecord .invalidInput s.ip 20)) := by
  simp only [exec, execInp, operandDst_reg, hidle, Option.getD_none, inProtocol, h]
  rfl

/-- An IN that waits keeps the phase it reached, and no polling point follows (R170, R214). -/
theorem step_of_waits (hr : s.runState = .running) (hf : s.fetch = .ok (.inp (.reg d)))
    (h : inProtocol s.inputEnded (s.inPhase.getD .first) s.input = .waits p) :
    step s = .next { s with input := [], inPhase := some p } := by
  have he : exec (.inp (.reg d)) s = .next { s with input := [], inPhase := some p } := by
    simp only [exec, execInp, operandDst_reg, h]
  rw [step_of_exec hr hf he, State.poll_of_not_requested (.inr (.inl (by simp)))]

/-- An IN that answers a state with an IN in progress is one that waits: a fault and a delivery leave none, and every other
effect is another instruction's (R170). -/
theorem waits_of_exec_inp (h : exec (.inp a) s = .next t) (hp : t.inPhase = some p) :
    ∃ d, a = .reg d ∧ inProtocol s.inputEnded (s.inPhase.getD .first) s.input = .waits p ∧
      t = { s with input := [], inPhase := some p } := by
  cases exec_effect h with
  | waits d q hi hq =>
    obtain rfl := Option.some.inj hp
    exact ⟨d, Instr.inp.inj hi, hq, rfl⟩
  | delivered | inputFault | fault => cases hp
  | _ => simp at *

/-- What an IN does depends on its phase and its input only by what the protocol makes of them. -/
theorem exec_inp_of_inProtocol_eq {bs : List Byte}
    (h : inProtocol s.inputEnded p bs = inProtocol s.inputEnded (s.inPhase.getD .first) s.input) :
    exec (.inp (.reg d)) { s with input := bs, inPhase := some p } = exec (.inp (.reg d)) s := by
  simp only [exec, execInp, operandDst_reg, Option.getD_some, h]
  cases inProtocol s.inputEnded (s.inPhase.getD .first) s.input with
  | delivered c ov rest => cases ov <;> rfl
  | exhausted | malformed rest | waits q => rfl

end

/-! ### the obligations -/

/-- Settles O31: the byte OUT appends, bits [7:0] of the value, is the value modulo 256. -/
theorem outAppendsLowByte : Obligations.OutAppendsLowByte := by
  refine ⟨fun s a x ha => ?_, fun s a h => exec_out_of_illegal h⟩
  have hbyte : BitVec.ofNat 8 (x.toNat % 256) = x.setWidth 8 := BitVec.eq_of_toNat_eq (by simp)
  rw [exec_out_of_resolved ha, hbyte]

/-- Settles O32, by what the protocol makes of a plain byte and of a closed override with a byte after it. -/
theorem inDeliversByteAndOverride : Obligations.InDeliversByteAndOverride := by
  refine fun s d hidle => ⟨fun c rest hin hc => ?_, fun ds c rest hne hds hv hin => ?_⟩
  · exact exec_inp_of_delivered hidle (hin ▸ inFirst_plain _ c rest hc)
  · exact exec_inp_of_delivered hidle (hin ▸ inFirst_override_close hds hv hne)

/-- Settles O33, clause by clause: each input is one the protocol exhausts or finds malformed. -/
theorem inFaultsConsumeOnlyInput : Obligations.InFaultsConsumeOnlyInput := by
  refine ⟨fun s d hidle => ⟨fun hin hend => ?_, fun ds hds hv hend hin => ?_, fun rest hin => ?_,
    fun ds b rest hds hv hin hb => ?_⟩, fun s a h => exec_inp_of_illegal h⟩
  · have hsame : { s with input := [] } = s := by rw [← hin]
    rw [exec_inp_of_exhausted hidle (by rw [hin, hend]; rfl), hsame]
  · obtain ⟨p, hp⟩ := inFirst_unfinished hds hv hin
    exact exec_inp_of_exhausted hidle (by rw [hp, hend, inNoByte_true])
  · refine exec_inp_of_malformed hidle ?_
    rw [hin]
    exact (inFirst_delimiter _ _).trans inNumber_none_close
  · exact exec_inp_of_malformed hidle (hin ▸ inFirst_malformed hds hv hb)

/-- Settles O34, by O32 for the digits 1234 and the byte 88. -/
theorem inOverrideExample : Obligations.InOverrideExample := by
  intro s hidle hin
  obtain ⟨-, hoverride⟩ := inDeliversByteAndOverride s .r0 hidle
  exact ⟨_, hoverride [49, 50, 51, 52] 88 [] (by simp) (by decide) (by decide) hin, rfl, rfl, rfl⟩

/-- Settles O35: each of the inputs asks for a byte there is none of, and the wait it leads to does so again. -/
theorem inWaitsWithoutPolling : Obligations.InWaitsWithoutPolling := by
  intro s d hr hf hend h
  obtain ⟨p, hp⟩ : ∃ p, inProtocol false (s.inPhase.getD .first) s.input = .waits p := by
    obtain ⟨hidle, hin | ⟨ds, hds, hv, hin⟩⟩ | hin := h
    · exact ⟨_, by rw [hin, inProtocol_nil, inNoByte_false]⟩
    · obtain ⟨p, hp⟩ := inFirst_unfinished hds hv hin
      exact ⟨p, by rw [hidle]; exact hp false⟩
    · exact ⟨_, by rw [hin, inProtocol_nil, inNoByte_false]⟩
  refine ⟨p, step_of_waits hr hf (hend ▸ hp), ?_⟩
  exact step_of_waits (s := { s with input := [], inPhase := some p }) hr hf (by rw [hend]; exact inProtocol_nil p)

/-- Settles O36: the wait kept the phase the bytes led to, and the protocol goes on from it as from the first byte. -/
theorem inResumesAfterWait : Obligations.InResumesAfterWait := by
  intro s t a p xs ys ended h hp
  obtain ⟨d, rfl, hwait, rfl⟩ := waits_of_exec_inp h hp
  exact exec_inp_of_inProtocol_eq (s := { s with input := xs ++ ys, inputEnded := ended })
    (inProtocol_append ys hwait).symm

/-- Settles O53, by the output's part of `Effect`; an OUT of an illegal operand faults and writes nothing. -/
theorem outputGrowsOnlyByOut : Obligations.OutputGrowsOnlyByOut := by
  intro s t h
  obtain ⟨-, rfl⟩ | ⟨-, c, op, -, rfl⟩ | ⟨hr, i, u, hf, hu, he, rfl⟩ := step_cases h
  · exact .inl rfl
  · exact .inl rfl
  rw [State.poll_output]
  by_cases hout : ∃ a, i = .out a
  · obtain ⟨a, rfl⟩ := hout
    obtain ⟨-, v, hv⟩ | ⟨hill, -⟩ := operandVal_cases s a
    · obtain rfl := Host.Outcome.next.inj ((exec_out_of_resolved hv).symm.trans hu)
      exact .inr ⟨a, v, hf, hv, rfl, State.poll_not_failed (by simp [hr])⟩
    · obtain rfl := Host.Outcome.next.inj ((exec_out_of_illegal hill).symm.trans hu)
      exact .inl rfl
  · exact .inl (he.output_eq fun a ha => hout ⟨a, ha⟩)

end Machine
end Sys2Proof
end

section
/-! PROOF. Faults and what is read of them (O6, O37 to O39): where a step that ends in Faulted raised its fault, with which cause and in
which state, and from that what R205 and R206 say of the state and the record after it. -/

namespace Sys2Proof

/-- An instruction has at most three operands (R61). -/
theorem Format.operandCount_le (f : Format) : f.operandCount ≤ 3 := by
  cases f <;> simp [Format.operandCount]

namespace Machine

/-! ### illegal operands -/

/-- Three checks that do not all pass have one that fails. -/
theorem or_eq_false_of_and_and_eq_false {x y z : Bool} (h : (x && y && z) = false) : x = false ∨ y = false ∨ z = false := by
  rwa [Bool.and_eq_false_iff, Bool.and_eq_false_iff, or_assoc] at h

/-- Settles O6: operands are resolved before anything else, and each instruction's equation for illegal ones gives the fault. -/
theorem illegalOperandFaults : Obligations.IllegalOperandFaults := by
  intro i s h
  cases i with
  | halt | ret | noop => cases h
  | set a b => exact setCopiesValue.2 s a b (Bool.and_eq_false_iff.1 h)
  | push a => exact pushAddsTop.2 s a h
  | pop a => exact popTakesTop.2 s a h
  | eq | gt | add | mult | mod | and | or => exact aluBinary_of_illegal (or_eq_false_of_and_and_eq_false h)
  | not a b => exact exec_not_of_illegal (Bool.and_eq_false_iff.1 h)
  | jmp a => exact exec_jmp_of_illegal h
  | jt a b => exact exec_jt_of_illegal (Bool.and_eq_false_iff.1 h)
  | jf a b => exact exec_jf_of_illegal (Bool.and_eq_false_iff.1 h)
  | rmem a b => exact exec_rmem_of_illegal (Bool.and_eq_false_iff.1 h)
  | wmem a b => exact exec_wmem_of_illegal (Bool.and_eq_false_iff.1 h)
  | call a => exact exec_call_of_illegal h
  | out a => exact exec_out_of_illegal h
  | inp a => exact exec_inp_of_illegal h

/-! ### the step that takes a fault -/

section
variable {s t : State} {i : Instr} {c : Cause} {op : Option Word}

/-- What an IN leaves of the input when it faults is the end of what there was (R170, R205). -/
theorem exists_input_eq_append {rest : List Byte}
    (hp : (inProtocol s.inputEnded (s.inPhase.getD .first) s.input = .exhausted ∧ rest = [] ∧ c = .inputExhausted) ∨
      (inProtocol s.inputEnded (s.inPhase.getD .first) s.input = .malformed rest ∧ c = .invalidInput)) :
    ∃ read, s.input = read ++ rest := by
  obtain ⟨-, rfl, -⟩ | ⟨hp, -⟩ := hp
  · exact ⟨s.input, (List.append_nil _).symm⟩
  · exact inProtocol_rest _ _ _ _ (.inl hp)

/-- An instruction that ends in Faulted raised a fault in the state it began with, but for input an IN has read (R205); OutOfBounds is
RMEM's or WMEM's (R209). -/
theorem Effect.exists_raise_of_failed (he : Effect i s t) (hr : s.runState = .running) (ht : t.failed) :
    ∃ c rest, t = State.raise { s with input := rest } c (some i.opcode) ∧ (∃ read, s.input = read ++ rest) ∧
      (rest = s.input ∨ ∃ a, i = .inp a) ∧
      ∀ access addr, c = .outOfBounds access addr →
        (access = .rmemRead ∧ ∃ a b, i = .rmem a b) ∨ (access = .wmemWrite ∧ ∃ a b, i = .wmem a b) := by
  cases he with
  | fault c hc hacc => exact ⟨c, s.input, rfl, ⟨[], rfl⟩, .inl rfl, hacc⟩
  | inputFault d rest c hi hp =>
    refine ⟨c, rest, rfl, exists_input_eq_append hp, .inr ⟨_, hi⟩, ?_⟩
    rintro access addr rfl
    simp at hp
  | halt hi => cases ht
  | _ => exact absurd ht (by simp [hr])

/-- A polling point that leaves the machine Faulted did nothing (R87). -/
theorem State.poll_of_poll_failed (h : s.poll.failed) : s.poll = s := by
  obtain ⟨-, -, -, hp⟩ | ⟨-, hp⟩ := State.poll_cases s
  · rw [hp] at h; cases h
  · exact hp

/-- A step that ends in Faulted took a fault of the fetch, or one of the instruction fetched (R200, R205). -/
theorem step_failed_cases (hr : s.runState = .running) (h : step s = .next t) (ht : t.failed) :
    (∃ c op, s.fetch = .error (c, op) ∧ t = s.raise c op) ∨ ∃ i, s.fetch = .ok i ∧ exec i s = .next t ∧ Effect i s t := by
  obtain ⟨hnr, -⟩ | ⟨-, c, op, hf, rfl⟩ | ⟨-, i, u, hf, hu, he, rfl⟩ := step_cases h
  · exact absurd hr hnr
  · exact .inl ⟨c, op, hf, rfl⟩
  · rw [State.poll_of_poll_failed ht]
    exact .inr ⟨i, hf, hu, he⟩

/-- Settles O37: both kinds of fault are raised in the state the step began with, but for the input an IN has read. -/
theorem faultsArePrecise : Obligations.FaultsArePrecise := by
  intro s t hr h ht
  obtain ⟨c, op, -, rfl⟩ | ⟨i, hf, -, he⟩ := step_failed_cases hr h ht
  · exact ⟨_, s.input, State.raise_eq_faultedWith s c op, ⟨[], rfl⟩, .inl rfl⟩
  · obtain ⟨c, rest, rfl, hread, hrest, -⟩ := he.exists_raise_of_failed hr ht
    exact ⟨_, rest, State.raise_eq_faultedWith _ c _, hread, by simpa [hf] using hrest⟩

/-! ### the opcode word and the address a fault names -/

/-- What a fetch answers (R82, R83), with every program inside memory: no opcode at the IP, a Word there that is none, or the operand
fetch of the opcode's row. -/
theorem State.fetch_cases (hfit : s.programSize ≤ s.memSize) :
    (s.programSize ≤ s.ip.toNat ∧ s.fetch = .error (.outOfBounds .opcodeFetch s.ip, none)) ∨
      s.fetch = .error (.invalidOpcode, some (Memory.read s.ip.toNat s.mem)) ∨
      ∃ f, s.ip.toNat < s.memSize ∧ opcodeRow (Memory.read s.ip.toNat s.mem) = some f ∧
        s.fetch = (s.fetchOperands f).mapError (·, some (Memory.read s.ip.toNat s.mem)) := by
  by_cases hip : s.programSize ≤ s.ip.toNat
  · exact .inl ⟨hip, State.fetch_of_programSize_le hip⟩
  have hip := Nat.not_le.1 hip
  cases hrow : opcodeRow (Memory.read s.ip.toNat s.mem) with
  | none => exact .inr (.inl (State.fetch_of_opcodeRow_eq_none hip hfit hrow))
  | some f => exact .inr (.inr ⟨f, hip.trans_le hfit, rfl, State.fetch_of_opcodeRow_eq_some hip hfit hrow⟩)

/-- An operand fetch that succeeds built the instruction by its format (R61, R83). -/
theorem State.builds_of_fetchOperands_ok {f : Format} (h : s.fetchOperands f = .ok i) : ∃ os, f.Builds os i := by
  cases f with
  | f0 j => cases h; exact ⟨_, .f0 _⟩
  | f1 build =>
    obtain ⟨a, -, h⟩ := exists_of_bind_eq_ok h
    cases h
    exact ⟨_, .f1 build a⟩
  | f2 build =>
    obtain ⟨a, -, h⟩ := exists_of_bind_eq_ok h
    obtain ⟨b, -, h⟩ := exists_of_bind_eq_ok h
    cases h
    exact ⟨_, .f2 build a b⟩
  | f3 build =>
    obtain ⟨a, -, h⟩ := exists_of_bind_eq_ok h
    obtain ⟨b, -, h⟩ := exists_of_bind_eq_ok h
    obtain ⟨d, -, h⟩ := exists_of_bind_eq_ok h
    cases h
    exact ⟨_, .f3 build a b d⟩

/-- The Word at the IP is the opcode of the instruction fetched (R82). -/
theorem State.opcode_of_fetch_ok (hfit : s.programSize ≤ s.memSize) (h : s.fetch = .ok i) :
    i.opcode = Memory.read s.ip.toNat s.mem := by
  obtain ⟨-, hf⟩ | hf | ⟨f, -, hrow, hf⟩ := State.fetch_cases hfit <;> rw [hf] at h
  · cases h
  · cases h
  cases ho : s.fetchOperands f with
  | error e => rw [ho] at h; cases h
  | ok j =>
    rw [ho] at h
    cases h
    obtain ⟨os, hb⟩ := State.builds_of_fetchOperands_ok ho
    exact (opcodeRow_builds hrow hb).1.symm

/-- The opcode word a fault of the fetch comes with, if any, is the Word at the IP (R206). -/
theorem State.opcode_of_fetch_error {w : Word} (hfit : s.programSize ≤ s.memSize) (h : s.fetch = .error (c, some w)) :
    w = Memory.read s.ip.toNat s.mem := by
  obtain ⟨-, hf⟩ | hf | ⟨f, -, -, hf⟩ := State.fetch_cases hfit <;> rw [hf] at h
  · cases h
  · cases h; rfl
  · cases ho : s.fetchOperands f <;> rw [ho] at h <;> cases h
    rfl

/-- OutOfBounds in a fetch is at the IP, at or past PROGRAM_SIZE, or at an operand Word past the end of memory, whose address is
exact (R22, R82, R83). -/
theorem State.outOfBounds_of_fetch_error {access : Access} {addr : Word} (hfit : s.programSize ≤ s.memSize)
    (hmem : s.memSize ≤ 32768) (h : s.fetch = .error (.outOfBounds access addr, op)) :
    (access = .opcodeFetch ∧ addr = s.ip ∧ s.programSize ≤ s.ip.toNat) ∨
      (access = .operandFetch ∧
        ∃ k, 1 ≤ k ∧ k ≤ 3 ∧ addr.toNat = s.ip.toNat + k ∧ s.memSize ≤ s.ip.toNat + k) := by
  obtain ⟨hip, hf⟩ | hf | ⟨f, hip, -, hf⟩ := State.fetch_cases hfit <;> rw [hf] at h
  · cases h
    exact .inl ⟨rfl, rfl, hip⟩
  · cases h
  cases ho : s.fetchOperands f with
  | ok j => rw [ho] at h; cases h
  | error e =>
    rw [ho] at h
    cases h
    obtain ⟨k, hk, hkf, hout, hc⟩ := State.fetchOperands_error ho
    obtain ⟨rfl, rfl⟩ := Cause.outOfBounds.inj hc
    refine .inr ⟨rfl, k, hk, hkf.trans f.operandCount_le, ?_, hout⟩
    have h3 := f.operandCount_le
    rw [BitVec.toNat_ofNat]
    omega

/-- The address an RMEM's OutOfBounds names is the one its second operand gives, outside memory (R161, R206). -/
theorem exec_rmem_outOfBounds {a b : Operand} (hr : s.runState = .running) (h : exec (.rmem a b) s = .next t)
    (ht : t.failed) (hc : t.faultRecord.faultCode = .outOfBounds) :
    operandVal s b = .ok t.faultRecord.faultAddr ∧ s.memSize ≤ t.faultRecord.faultAddr.toNat := by
  by_cases hlegal : a.isReg = false ∨ b.isValue = false
  · obtain rfl := Host.Outcome.next.inj ((rmemReadsWord.2 s a b hlegal).symm.trans h)
    cases hc
  obtain ⟨d, rfl, -⟩ := (operandDst_cases a).resolve_right fun ha => hlegal (.inl ha.1)
  obtain ⟨-, addr, hb⟩ := (operandVal_cases s b).resolve_right fun hb => hlegal (.inr hb.1)
  obtain ⟨hin, hout⟩ := rmemReadsWord.1 s d b addr hb
  obtain haddr | haddr := Nat.lt_or_ge addr.toNat s.memSize
  · obtain rfl := Host.Outcome.next.inj ((hin haddr).symm.trans h)
    exact absurd ht (by simp [hr])
  · obtain rfl := Host.Outcome.next.inj ((hout haddr).symm.trans h)
    exact ⟨hb, haddr⟩

/-- The address a WMEM's OutOfBounds names is the one its first operand gives, outside memory (R162, R206). -/
theorem exec_wmem_outOfBounds {a b : Operand} (hr : s.runState = .running) (h : exec (.wmem a b) s = .next t)
    (ht : t.failed) (hc : t.faultRecord.faultCode = .outOfBounds) :
    operandVal s a = .ok t.faultRecord.faultAddr ∧ s.memSize ≤ t.faultRecord.faultAddr.toNat := by
  by_cases hlegal : a.isValue = false ∨ b.isValue = false
  · obtain rfl := Host.Outcome.next.inj ((exec_wmem_of_illegal hlegal).symm.trans h)
    cases hc
  obtain ⟨-, addr, ha⟩ := (operandVal_cases s a).resolve_right fun ha => hlegal (.inl ha.1)
  obtain ⟨-, v, hb⟩ := (operandVal_cases s b).resolve_right fun hb => hlegal (.inr hb.1)
  obtain haddr | haddr := Nat.lt_or_ge addr.toNat s.memSize
  · obtain rfl := Host.Outcome.next.inj ((exec_wmem_of_lt ha hb haddr).symm.trans h)
    exact absurd ht (by simp [hr])
  · obtain rfl := Host.Outcome.next.inj (((wmemWritesWord.1 s a b addr v ha hb).2 haddr).symm.trans h)
    exact ⟨ha, haddr⟩

theorem Cause.eq_outOfBounds_of_code (h : c.code = .outOfBounds) : ∃ access addr, c = .outOfBounds access addr := by
  cases c with
  | outOfBounds access addr => exact ⟨access, addr, rfl⟩
  | _ => cases h

/-- A well-formed record: a fault is coded, and which of its fields are valid follows from the code and the access (R29, R206). -/
theorem FaultRecord.valid_fields_of_wf {r : FaultRecord} (h : r.wf = true) :
    r.faultCode ≠ .none ∧ (r.opcodeValid = false ↔ r.faultCode = .outOfBounds ∧ r.faultAccess = .opcodeFetch) ∧
      (r.addrValid = true ↔ r.faultCode = .outOfBounds) ∧ (r.faultCode ≠ .outOfBounds → r.faultAccess = .opcodeFetch) := by
  simp only [FaultRecord.wf, Bool.and_eq_true, Bool.or_eq_true, beq_iff_eq, decide_eq_true_eq] at h
  obtain ⟨⟨⟨⟨hcode, haddr⟩, hnone⟩, hop⟩, -⟩ := h
  rw [haddr] at hnone hop
  refine ⟨hcode, ?_, ?_, ?_⟩
  · simp [hop]
  · simp [haddr]
  · exact fun hne => (hnone.resolve_left (by simp [hne])).2

end

/-- Settles O38: the valid fields by the record's well-formedness, the opcode and the address by the place the fault was raised. -/
theorem faultRecordNamesIpOpcodeAndAddress : Obligations.FaultRecordNamesIpOpcodeAndAddress := by
  intro s t hr hfit hmem h ht
  obtain ⟨c, op, hf, rfl⟩ | ⟨i, hf, hexec, he⟩ := step_failed_cases hr h ht
  · obtain ⟨hcode, hop, haddr, hacc⟩ :=
      FaultRecord.valid_fields_of_wf (FaultRecord.wf_ofCause s.ip (State.fetch_error_opcode hf))
    refine ⟨hcode, rfl, fun hvalid => ?_, hop, haddr, hacc, fun hc => ?_⟩
    · obtain ⟨w, rfl⟩ := Option.isSome_iff_exists.1 hvalid
      exact State.opcode_of_fetch_error hfit hf
    · obtain ⟨access, addr, rfl⟩ := Cause.eq_outOfBounds_of_code hc
      obtain ⟨rfl, hbounds⟩ | ⟨rfl, hbounds⟩ := State.outOfBounds_of_fetch_error hfit hmem hf
      · exact hbounds
      · exact hbounds
  · obtain ⟨c, rest, rfl, -, -, hbounds⟩ := he.exists_raise_of_failed hr ht
    have hnot : ∀ a, c ≠ .outOfBounds .opcodeFetch a := by
      rintro a rfl
      simpa using hbounds _ _ rfl
    obtain ⟨hcode, hop, haddr, hacc⟩ :=
      FaultRecord.valid_fields_of_wf (FaultRecord.wf_ofCause (op := some i.opcode) s.ip (by simpa using hnot))
    refine ⟨hcode, rfl, fun _ => State.opcode_of_fetch_ok hfit hf, hop, haddr, hacc, fun hc => ?_⟩
    obtain ⟨access, addr, rfl⟩ := Cause.eq_outOfBounds_of_code hc
    obtain ⟨rfl, a, b, rfl⟩ | ⟨rfl, a, b, rfl⟩ := hbounds _ _ rfl
    · exact ⟨a, b, hf, exec_rmem_outOfBounds hr hexec ht rfl⟩
    · exact ⟨a, b, hf, exec_wmem_outOfBounds hr hexec ht rfl⟩

/-! ### the status word -/

/-- The fields of the status word stand side by side: RunState in bits [1:0], 0 in [3:2], FaultCode in [7:4] (R207). -/
theorem State.statusWord_toNat (s : State) :
    s.statusWord.toNat = s.runState.bits.toNat + 16 * s.shownFaultCode.bits.toNat := by
  have happend : ∀ (code : BitVec 4) (run : BitVec 2), (code ++ (0#2 ++ run)).toNat = run.toNat + 16 * code.toNat := by
    decide
  exact happend _ _

/-- A machine that is not Faulted shows no FaultCode (R207). -/
theorem State.statusWord_of_not_failed {s : State} (h : ¬ s.failed) :
    s.statusWord = 0#4 ++ (0#2 ++ s.runState.bits) := by
  rw [State.statusWord, State.shownFaultCode, if_neg h]
  rfl

/-- Settles O39, by the value of the status word in each run state. -/
theorem statusWordFields : Obligations.StatusWordFields := by
  intro s
  refine ⟨?_, fun h => ?_, fun h => ?_, fun h => ?_, fun h => ?_⟩
  · have hrun : s.runState.bits.toNat < 4 := s.runState.bits.isLt
    have hfield : (s.runState.bits.toNat + 16 * s.shownFaultCode.bits.toNat) / 4 % 4 = 0 := by omega
    apply BitVec.eq_of_toNat_eq
    simpa [Nat.shiftRight_eq_div_pow, State.statusWord_toNat] using hfield
  · rw [State.statusWord_of_not_failed (by simp [h]), State.exitStatus, h]; exact ⟨rfl, rfl⟩
  · rw [State.statusWord_of_not_failed (by simp [h]), State.exitStatus, h]; exact ⟨rfl, rfl⟩
  · rw [State.statusWord_of_not_failed (by simp [h]), State.exitStatus, h]; exact ⟨rfl, rfl⟩
  · rw [State.statusWord_toNat, State.shownFaultCode, State.exitStatus, h]; exact ⟨rfl, rfl⟩

end Machine
end Sys2Proof
end

section
/-! PROOF. Load, reset and the host's interactions (O40 to O44, O46, O48): what a load and a restore answer, once, and from that the
state each leaves and the invariant. -/

namespace Sys2Proof

/-- Word `i` of an image is bytes `2i` and `2i + 1`, low byte first (R44, R242). -/
theorem toNat_getD_of_wordsOfBytes {bs : List Byte} {ws : List Word} (h : wordsOfBytes bs = some ws) (i : Nat) :
    (ws.getD i 0).toNat = (bs.getD (2 * i) 0).toNat + 256 * (bs.getD (2 * i + 1) 0).toNat := by
  induction ws generalizing bs i with
  | nil =>
    obtain rfl : bs = [] := List.eq_nil_of_length_eq_zero (wordsOfBytes_length bs [] h)
    rfl
  | cons w ws ih =>
    match bs, h with
    | lo :: hi :: rest, h =>
      obtain ⟨ws', hrest, hcons⟩ := Option.map_eq_some_iff.1 h
      obtain ⟨rfl, rfl⟩ := List.cons.inj hcons
      cases i with
      | zero => exact append_bytes_toNat hi lo
      | succ i => simpa [Nat.mul_succ] using ih hrest i

namespace Machine

/-! ### load -/

section
variable {s t : State} {image : List Byte} {ws : List Word}

theorem State.load_of_odd (h : image.length % 2 = 1) : s.load image = .error .oddImage := by
  simp [State.load, (wordsOfBytes_eq_none_iff image).2 h]

theorem State.load_of_words (hw : wordsOfBytes image = some ws) :
    s.load image = if s.config.memSize < ws.length then .error .imageTooLong else .ok (s.boot ws) := by
  simp [State.load, hw]

/-- A load that answers a machine reset it with the image's Words, as many as fit (R242, R244). -/
theorem State.exists_boot_of_load_ok (h : s.load image = .ok t) :
    ∃ ws, wordsOfBytes image = some ws ∧ ws.length ≤ s.config.memSize ∧ t = s.boot ws := by
  cases hw : wordsOfBytes image with
  | none =>
    rw [State.load_of_odd ((wordsOfBytes_eq_none_iff image).1 hw)] at h
    cases h
  | some ws =>
    rw [State.load_of_words hw] at h
    split at h <;> cases h
    exact ⟨ws, rfl, Nat.not_lt.1 ‹_›, rfl⟩

/-- An even number of bytes are Words, half as many (R242). -/
theorem exists_wordsOfBytes_of_even (h : image.length % 2 = 0) :
    ∃ ws, wordsOfBytes image = some ws ∧ image.length = 2 * ws.length := by
  cases hw : wordsOfBytes image with
  | none => have := (wordsOfBytes_eq_none_iff image).1 hw; omega
  | some ws => exact ⟨ws, rfl, wordsOfBytes_length image ws hw⟩

/-- After a reset the image's Words are at their addresses (R49). -/
theorem State.read_boot_image (s : State) {i : Nat} (hi : i < ws.length) :
    Memory.read i (s.boot ws).mem = ws.getD i 0 := by
  rw [State.boot_mem, Memory.read_ofWords, List.getD_append _ _ _ _ hi, unlistedWord]

/-- After a reset the headroom holds HEADROOM_INIT, counted from PROGRAM_SIZE on, and 0 after it (R50). -/
theorem State.read_boot_headroom (s : State) {i : Nat} (hi : ws.length ≤ i) (hmem : i < s.config.memSize) :
    Memory.read i (s.boot ws).mem = s.config.headroomInit.getD (i - ws.length) 0 := by
  have hkept : i - ws.length < s.config.memSize - ws.length := by omega
  rw [State.boot_mem, Memory.read_ofWords, List.getD_append_right _ _ _ _ hi, List.getD_eq_getElem?_getD,
    List.getElem?_take_of_lt hkept, ← List.getD_eq_getElem?_getD, unlistedWord]

/-- After a reset with no HEADROOM_INIT every address past the image reads 0 (R50, R240). -/
theorem State.read_boot_of_headroomInit_eq_nil {i : Nat} (hinit : s.config.headroomInit = []) (hi : ws.length ≤ i) :
    Memory.read i (s.boot ws).mem = 0 := by
  rw [State.boot_mem, Memory.read_ofWords, hinit, List.take_nil, List.append_nil, List.getD_eq_default _ _ hi,
    unlistedWord]

/-- A reset state meets the invariant if the image fits in memory and the parameters and the snapshots handed out are valid (R240). -/
theorem State.boot_inv (hfit : ws.length ≤ s.config.memSize) (hconfig : s.config.wf = true)
    (hstack : s.config.stackAllows 0 = true)
    (hsnap : ∀ x ∈ s.snapshots, x.restorable s.config = true ∧ x.runningFlag = false) : (s.boot ws).Inv where
  memCanonical := Memory.wf_ofWords _
  memInside := Memory.below_ofWords _ _ (by simp; omega)
  programFits := hfit
  memFits := of_decide_eq_true hconfig
  stackFits := hstack
  flagIsRunning := rfl
  recordClear := fun _ => rfl
  recordSet := nofun
  phaseIsIn := fun h => absurd rfl h
  snapshotsValid := hsnap
  configFits := hconfig

end

/-- Settles O40: an odd image has no Words, a long one too many, and every other one is booted. -/
theorem loadPlacesImageLowByteFirst : Obligations.LoadPlacesImageLowByteFirst := by
  refine fun s image => ⟨State.load_of_odd, fun heven hlong => ?_, fun heven hfits => ?_⟩
  all_goals obtain ⟨ws, hw, hlen⟩ := exists_wordsOfBytes_of_even heven
  · rw [State.load_of_words hw, if_pos (by omega)]
  · refine ⟨s.boot ws, ?_, hlen, fun i hi => ?_, fun i hi hmem => State.read_boot_headroom s hi hmem⟩
    · rw [State.load_of_words hw, if_neg (by omega)]
    · rw [State.read_boot_image s hi, toNat_getD_of_wordsOfBytes hw]

/-- Settles O41: the machine after a load is the booted one, whose fields are the reset values. -/
theorem loadResetsEveryField : Obligations.LoadResetsEveryField := by
  intro s t image h
  obtain ⟨ws, hw, -, rfl⟩ := State.exists_boot_of_load_ok h
  refine ⟨rfl, rfl, rfl, rfl, rfl, rfl, rfl, rfl, rfl, rfl, wordsOfBytes_length image ws hw, fun i hi => ?_,
    fun hdefault => ⟨fun r => ?_, ?_, fun a ha => ?_⟩⟩
  · rw [State.read_boot_image s hi, toNat_getD_of_wordsOfBytes hw]
  · rw [State.readReg, State.boot_regs, hdefault]
    cases r <;> rfl
  · rw [State.boot_memSize, hdefault]; rfl
  · exact State.read_boot_of_headroomInit_eq_nil (by rw [hdefault]; rfl) ha

/-- Settles O42, by evaluation of the load. -/
theorem resetIsLoadOfEmptyImage : Obligations.ResetIsLoadOfEmptyImage := ⟨rfl, rfl, rfl⟩

/-- Settles O46: the reset state is a machine booted with the empty image. -/
theorem resetMeetsInvariant : Obligations.ResetMeetsInvariant :=
  State.boot_inv (s := State.reset) (ws := []) (Nat.zero_le _) (by decide) rfl nofun

/-! ### restore -/

/-- Eight Words are a register file (R216, R218). -/
theorem Regs.exists_ofList_of_length {l : List Word} (h : l.length = 8) :
    ∃ regs, Regs.ofList l = some regs ∧ Regs.toList regs = l := by
  match l, h with
  | [r0, r1, r2, r3, r4, r5, r6, r7], _ => exact ⟨⟨r0, r1, r2, r3, r4, r5, r6, r7⟩, rfl, rfl⟩

/-- A snapshot installed keeps the invariant, whatever state it is restored over, if the parameters and the snapshots handed out are
valid (R217, R218). -/
theorem State.Inv.of_restore {s t : State} {x : Snapshot} (h : s.restore x = .ok t) (hconfig : s.config.wf = true)
    (hsnap : ∀ x ∈ s.snapshots, x.restorable s.config = true ∧ x.runningFlag = false) : t.Inv := by
  obtain ⟨hx, regs, hregs⟩ := State.restore_ok h
  obtain ⟨-, hprog, hmem, hstack, hwf, hbelow⟩ := (Snapshot.restorable_iff _ _).1 hx
  rw [State.restore_of_restorable s x regs hregs hx] at h
  cases h
  exact {
    memCanonical := hwf
    memInside := hbelow
    programFits := hprog
    memFits := hmem
    stackFits := by rwa [List.length_reverse]
    flagIsRunning := rfl
    recordClear := fun _ => rfl
    recordSet := nofun
    phaseIsIn := fun h => absurd rfl h
    snapshotsValid := hsnap
    configFits := hconfig }

theorem State.host_restore (s : State) (x : Snapshot) :
    s.host (.restore x) = (s.restore x).mapError .snapshotRefused := by
  simp only [State.host]
  cases s.restore x <;> rfl

/-- Settles O43: the fields of a valid snapshot are those of the machine it is restored to. -/
theorem restoreInstallsSnapshot : Obligations.RestoreInstallsSnapshot := by
  intro s x hx
  obtain ⟨h8, -⟩ := (Snapshot.restorable_iff _ _).1 hx
  obtain ⟨regs, hregs, hlist⟩ := Regs.exists_ofList_of_length h8
  rw [State.host_restore, State.restore_of_restorable s x regs hregs hx]
  exact ⟨_, rfl, rfl, hlist, List.reverse_reverse _, rfl, rfl, rfl, rfl, rfl, rfl, rfl, rfl, rfl, rfl, rfl⟩

/-- Settles O44: a restore that answers a machine was of a valid snapshot. -/
theorem restoreRefusesInvalidSnapshot : Obligations.RestoreRefusesInvalidSnapshot := by
  intro s x hbad
  rw [State.host_restore]
  cases h : s.restore x with
  | error r => exact ⟨r, rfl⟩
  | ok t =>
    obtain ⟨h8, hprog, hmem, hstack, -⟩ := (Snapshot.restorable_iff _ _).1 (State.restore_ok h).1
    obtain hbad | hbad | hbad | hbad := hbad
    · exact absurd h8 hbad
    · exact absurd hprog (Nat.not_le.2 hbad)
    · exact absurd hmem (Nat.not_le.2 hbad)
    · simp [hstack] at hbad

/-- Settles O48, event by event: a load boots, a restore installs a valid snapshot, and the invariant says nothing of the input or the
latch. -/
theorem hostKeepsInvariant : Obligations.HostKeepsInvariant := by
  intro s t e hI h
  cases e with
  | load image =>
    obtain ⟨ws, -, hfit, rfl⟩ := State.exists_boot_of_load_ok h
    exact State.boot_inv hfit hI.configFits (Config.stackAllows_mono _ _ _ hI.stackFits (Nat.zero_le _))
      hI.snapshotsValid
  | inputByte b =>
    simp only [State.host] at h
    split at h
    · cases h
    · cases h
      exact hI.setInput _
  | endOfInput | cancelRequest =>
    cases h
    exact { hI with phaseIsIn := hI.phaseIsIn }
  | restore x =>
    rw [State.host_restore] at h
    cases hx : s.restore x with
    | error r => rw [hx] at h; cases h
    | ok u =>
      rw [hx] at h
      cases h
      exact State.Inv.of_restore hx hI.configFits hI.snapshotsValid

end Machine
end Sys2Proof
end

section
/-! PROOF. The resume contract (O45): the resumed machine is the suspended one with the latch clear and one more snapshot handed out, and
no step depends on the snapshots handed out, so the two runs stay side by side. -/

namespace Sys2Proof
namespace Machine

/-- The state with other snapshots in the host's hands. -/
def State.withSnapshots (s : State) (xs : List Snapshot) : State := { s with snapshots := xs }

section
variable {s t : State} {i : Instr} {xs : List Snapshot}

/-! ### what the instructions are written over does not see the snapshots -/

theorem operandVal_withSnapshots (o : Operand) : operandVal (s.withSnapshots xs) o = operandVal s o := by
  cases o <;> rfl

theorem State.push_withSnapshots (v : Word) : (s.withSnapshots xs).push v = (·.withSnapshots xs) <$> s.push v := by
  obtain ⟨hroom, h⟩ | ⟨hfull, h⟩ := State.push_cases s v
  · exact h ▸ State.push_of_room hroom
  · exact h ▸ State.push_of_full hfull

theorem State.pop_withSnapshots : (s.withSnapshots xs).pop = (fun p => (p.1, p.2.withSnapshots xs)) <$> s.pop := by
  obtain ⟨hs, h⟩ | ⟨v, rest, hs, h⟩ := State.pop_cases s
  · exact h ▸ State.pop_of_nil hs
  · exact h ▸ State.pop_of_cons hs

theorem State.memWrite_withSnapshots (addr v : Word) :
    (s.withSnapshots xs).memWrite addr.toNat v = (·.withSnapshots xs) <$> s.memWrite addr.toNat v := by
  obtain hin | hout := Nat.lt_or_ge addr.toNat s.memSize
  · exact State.memWrite_of_lt hin ▸ State.memWrite_of_lt (s := s.withSnapshots xs) hin
  · exact State.memWrite_of_le hout ▸ State.memWrite_of_le (s := s.withSnapshots xs) hout

/-- A meaning whose result only differs in the snapshots ends in a state that does (R205). -/
theorem complete_withSnapshots {r r' : Except Cause State} (h : complete i s r = .next t)
    (hr : r' = (·.withSnapshots xs) <$> r) : complete i (s.withSnapshots xs) r' = .next (t.withSnapshots xs) := by
  subst hr
  obtain rfl | ⟨c, rfl, rfl⟩ := complete_cases h <;> rfl

/-- IN does the same, case by case of what the protocol makes of the input. -/
theorem exec_inp_withSnapshots {a : Operand} (h : exec (.inp a) s = .next t) :
    exec (.inp a) (s.withSnapshots xs) = .next (t.withSnapshots xs) := by
  have hp : inProtocol (s.withSnapshots xs).inputEnded ((s.withSnapshots xs).inPhase.getD .first)
    (s.withSnapshots xs).input = inProtocol s.inputEnded (s.inPhase.getD .first) s.input := rfl
  obtain ⟨d, rfl, hd⟩ | ⟨ha, -⟩ := operandDst_cases a
  · simp only [exec, execInp, hd, hp] at h ⊢
    cases hr : inProtocol s.inputEnded (s.inPhase.getD .first) s.input with
    | delivered c ov rest =>
      simp only [hr] at h ⊢
      cases h
      cases ov <;> rfl
    | exhausted | malformed rest | waits p =>
      simp only [hr] at h ⊢
      cases h
      rfl
  · rw [exec_inp_of_illegal ha] at h ⊢
    cases h
    rfl

/-- Every instruction does the same with other snapshots handed out (R226). -/
theorem exec_withSnapshots (h : exec i s = .next t) : exec i (s.withSnapshots xs) = .next (t.withSnapshots xs) := by
  cases i with
  | halt | noop => cases h; rfl
  | inp a => exact exec_inp_withSnapshots h
  | _ =>
    refine complete_withSnapshots h ?_
    simp only [operandVal_withSnapshots, State.push_withSnapshots, State.pop_withSnapshots,
      State.memWrite_withSnapshots, map_bind, map_pure, bind_map_left, apply_ite (State.withSnapshots · xs)]
    rfl

/-! ### steps and runs -/

/-- With the latch clear a step leaves it clear, and does the same with other snapshots handed out (R30, R87). -/
theorem step_withSnapshots (hc : s.cancel = false) (h : step s = .next t) :
    t.cancel = false ∧ step (s.withSnapshots xs) = .next (t.withSnapshots xs) := by
  obtain ⟨hr, rfl⟩ | ⟨hr, c, op, hf, rfl⟩ | ⟨hr, i, u, hf, hu, he, rfl⟩ := step_cases h
  · exact ⟨hc, step_of_not_running hr⟩
  · exact ⟨hc, step_of_fetch_error (s := s.withSnapshots xs) hr hf⟩
  · have hcu : u.cancel = false := he.sameLatch.1.trans hc
    rw [State.poll_of_cancel_false u hcu]
    refine ⟨hcu, ?_⟩
    rw [step_of_exec (s := s.withSnapshots xs) hr hf (exec_withSnapshots hu),
      State.poll_of_cancel_false (u.withSnapshots xs) hcu]

/-- A run goes on from the state its first step answers. -/
theorem run_succ_of_step (h : step s = .next t) (n : Nat) : core.run (n + 1) s = core.run n t := by
  have h' : core.step s = .next t := h
  simp only [Host.Core.run, h']

/-- With the latch clear a run of any length answers a state, and the same one but for the snapshots with others handed out. -/
theorem run_withSnapshots (n : Nat) (hc : s.cancel = false) :
    ∃ t, core.run n s = .next t ∧ core.run n (s.withSnapshots xs) = .next (t.withSnapshots xs) := by
  induction n generalizing s with
  | zero => exact ⟨s, rfl, rfl⟩
  | succ n ih =>
    obtain ⟨u, hu⟩ := everyInstructionAndStepAnswersNext.2 s
    obtain ⟨hcu, hu'⟩ := step_withSnapshots (xs := xs) hc hu
    obtain ⟨t, ht, ht'⟩ := ih hcu
    exact ⟨t, (run_succ_of_step hu n).trans ht, (run_succ_of_step hu' n).trans ht'⟩

/-- A suspend and the restore of its snapshot clear the latch and hand out the snapshot, and that is all (R87, R217). -/
theorem State.restore_suspend (hI : s.Inv) (hr : s.runState = .running) (hp : s.inPhase = none) :
    s.suspend.restore s.snapshot = .ok ({ s with cancel := false }.withSnapshots (s.snapshots ++ [s.snapshot])) := by
  have hflag : s.runningFlag = true := by rw [hI.flagIsRunning, hr]; rfl
  have hrecord : s.faultRecord = FaultRecord.clear := hI.recordClear (by simp [hr])
  rw [State.restore_of_restorable s.suspend s.snapshot s.regs rfl (State.snapshot_restorable s hI)]
  simp [State.withSnapshots, State.suspend, State.snapshot, hflag, hrecord, hr, hp]

end

/-- Settles O45: the two runs start in states that differ in the snapshots alone, with the latch clear. -/
theorem resumedRunEqualsUninterruptedRun : Obligations.ResumedRunEqualsUninterruptedRun := by
  intro s hI hr hp
  refine ⟨_, State.restore_suspend hI hr hp, fun n => ?_⟩
  obtain ⟨v, hv, hu⟩ := run_withSnapshots (s := { s with cancel := false }) n rfl
  exact ⟨_, v, hu, hv, rfl⟩

end Machine
end Sys2Proof
end
